-- ==== Sys2Proof/Word.lean ====
section
/-! DEFINITION. The word types of the machine and the plainest operations on them (00_scope.md R7). -/

namespace Sys2Proof

/-- The 8-bit unit of RAM, of VRAM and of a general register (R10, R24). -/
abbrev Byte := BitVec 8

/-- An opcode, and the width of `I`, `pc` and `ERR_INFO` (R12, R14, R20, R60). -/
abbrev Word := BitVec 16

/-- One of the four nibbles A, B, C, D of an opcode (R61). -/
abbrev Nibble := BitVec 4

/-- The index of a general register: a 4-bit field, so always in range (R10, R63). -/
abbrev RegIx := BitVec 4

/-- A 12-bit immediate `nnn` (R63). -/
abbrev Addr12 := BitVec 12

/-- `zext_16` (R7). -/
abbrev zext16 {n : Nat} (v : BitVec n) : Word := v.setWidth 16

end Sys2Proof
end

