-- ==== Sys2Proof/Syntax.lean ====
section
/-! DEFINITION. The instruction set: one constructor per row of spec/opcode_table.json (30_encoding.md R66). A
constructor carries exactly the operand fields of its row (R62, R63); SHR and SHL carry the `y` field their pattern
admits although no effect reads it (R70). -/

namespace Sys2Proof

inductive Instr where
  /-- `00E0` display clear (R140). -/
  | cls
  /-- `00EE` subroutine return (R86). -/
  | ret
  /-- `1nnn` jump (R83). -/
  | jp (nnn : Addr12)
  /-- `2nnn` subroutine call (R85). -/
  | call (nnn : Addr12)
  /-- `3xkk` skip if `V[x] = kk` (R100). -/
  | seImm (x : RegIx) (kk : Byte)
  /-- `4xkk` skip if `V[x] ≠ kk` (R101). -/
  | sneImm (x : RegIx) (kk : Byte)
  /-- `5xy0` skip if `V[x] = V[y]` (R102). -/
  | seReg (x y : RegIx)
  /-- `6xkk` load immediate (R110). -/
  | ldImm (x : RegIx) (kk : Byte)
  /-- `7xkk` add immediate (R111). -/
  | addImm (x : RegIx) (kk : Byte)
  /-- `8xy0` register copy (R112). -/
  | ldReg (x y : RegIx)
  /-- `8xy1` bitwise OR (R114). -/
  | orReg (x y : RegIx)
  /-- `8xy2` bitwise AND (R115). -/
  | andReg (x y : RegIx)
  /-- `8xy3` bitwise XOR (R116). -/
  | xorReg (x y : RegIx)
  /-- `8xy4` add with carry out (R117). -/
  | addReg (x y : RegIx)
  /-- `8xy5` subtract (R118). -/
  | subReg (x y : RegIx)
  /-- `8xy6` shift right (R119). -/
  | shr (x y : RegIx)
  /-- `8xy7` reverse subtract (R120). -/
  | subnReg (x y : RegIx)
  /-- `8xyE` shift left (R121). -/
  | shl (x y : RegIx)
  /-- `9xy0` skip if `V[x] ≠ V[y]` (R103). -/
  | sneReg (x y : RegIx)
  /-- `Annn` load the index register (R130). -/
  | ldI (nnn : Addr12)
  /-- `Bnnn` jump with offset `V[0]` (R84). -/
  | jpV0 (nnn : Addr12)
  /-- `Cxkk` random byte under a mask (R122). -/
  | rnd (x : RegIx) (kk : Byte)
  /-- `Dxyn` sprite draw (R141). -/
  | drw (x y : RegIx) (n : Nibble)
  /-- `Ex9E` key-query stub (R150). -/
  | skp (x : RegIx)
  /-- `ExA1` key-query stub (R151). -/
  | sknp (x : RegIx)
  /-- `Fx07` read the delay timer (R153). -/
  | ldFromDt (x : RegIx)
  /-- `Fx0A` key-wait stub (R152). -/
  | ldKey (x : RegIx)
  /-- `Fx15` write the delay timer (R154). -/
  | ldToDt (x : RegIx)
  /-- `Fx18` write the sound timer (R155). -/
  | ldToSt (x : RegIx)
  /-- `Fx1E` add to the index register (R131). -/
  | addI (x : RegIx)
  /-- `Fx29` font-address lookup (R132). -/
  | ldFont (x : RegIx)
  /-- `Fx33` BCD decomposition (R133). -/
  | ldBcd (x : RegIx)
  /-- `Fx55` store registers 0 to x (R134). -/
  | storeRegs (x : RegIx)
  /-- `Fx65` load registers 0 to x (R135). -/
  | loadRegs (x : RegIx)
  deriving DecidableEq, Repr

end Sys2Proof
end

