-- ==== Sys2Proof/Decode.lean ====
section
/-! DEFINITION. The decoder and the encoder (30_encoding.md). The definition table is written as the spec writes its
entries: the required top nibble and, for B, C and D, a fixed nibble or a placeholder (R65, R66), with the `match` and
`mask` columns beside them. -/

namespace Sys2Proof

/-- A position B, C or D of a pattern (R65, R66): a fixed nibble, or the placeholder kinds of R73, or a position under
the wider immediate to its left. -/
inductive Slot where
  | fixed (n : Nibble)
  | regX
  | regY
  | imm12
  | imm8
  | imm4
  | covered
  deriving DecidableEq, Repr

/-- The nibbles of an opcode (R61). -/
def nibA (w : Word) : Nibble := w.extractLsb' 12 4
def nibB (w : Word) : Nibble := w.extractLsb' 8 4
def nibC (w : Word) : Nibble := w.extractLsb' 4 4
def nibD (w : Word) : Nibble := w.extractLsb' 0 4

/-- The operand fields of an opcode (R63). -/
def fieldX (w : Word) : RegIx := nibB w
def fieldY (w : Word) : RegIx := nibC w
def fieldN (w : Word) : Nibble := nibD w
def fieldKK (w : Word) : Byte := w.extractLsb' 0 8
def fieldNNN (w : Word) : Addr12 := w.extractLsb' 0 12

/-- Whether a position admits a nibble: a fixed one must be equal, a placeholder is not compared (R65). -/
def Slot.admits : Slot → Nibble → Bool
  | .fixed n, m => n == m
  | .regX, _ => true
  | .regY, _ => true
  | .imm12, _ => true
  | .imm8, _ => true
  | .imm4, _ => true
  | .covered, _ => true

/-- One entry of the definition table. `bits` and `mask` are the spec's `match` and `mask` columns; the matcher reads
the nibble pattern, and `Obligations.MaskAndMatchAgreeWithTheNibblePattern` says the two agree. -/
structure Row where
  mnemonic : String
  a        : Nibble
  b        : Slot
  c        : Slot
  d        : Slot
  bits     : Word
  mask     : Word
  build    : Word → Instr

/-- R65: an entry matches when A equals its top nibble and B, C, D are admitted. -/
def Row.admits (r : Row) (w : Word) : Bool :=
  r.a == nibA w && r.b.admits (nibB w) && r.c.admits (nibC w) && r.d.admits (nibD w)

/-- Rows 1 to 9 of R66. -/
def rowsControl : List Row :=
  [ ⟨"CLS", 0x0, .fixed 0x0, .fixed 0xE, .fixed 0x0, 0x00E0, 0xFFFF, fun _ => .cls⟩,
    ⟨"RET", 0x0, .fixed 0x0, .fixed 0xE, .fixed 0xE, 0x00EE, 0xFFFF, fun _ => .ret⟩,
    ⟨"JP_nnn", 0x1, .imm12, .covered, .covered, 0x1000, 0xF000, fun w => .jp (fieldNNN w)⟩,
    ⟨"CALL_nnn", 0x2, .imm12, .covered, .covered, 0x2000, 0xF000, fun w => .call (fieldNNN w)⟩,
    ⟨"SE_Vx__kk", 0x3, .regX, .imm8, .covered, 0x3000, 0xF000, fun w => .seImm (fieldX w) (fieldKK w)⟩,
    ⟨"SNE_Vx__kk", 0x4, .regX, .imm8, .covered, 0x4000, 0xF000, fun w => .sneImm (fieldX w) (fieldKK w)⟩,
    ⟨"SER_Vx__Vy", 0x5, .regX, .regY, .fixed 0x0, 0x5000, 0xF00F, fun w => .seReg (fieldX w) (fieldY w)⟩,
    ⟨"LD_Vx__kk", 0x6, .regX, .imm8, .covered, 0x6000, 0xF000, fun w => .ldImm (fieldX w) (fieldKK w)⟩,
    ⟨"ADD_Vx__kk", 0x7, .regX, .imm8, .covered, 0x7000, 0xF000, fun w => .addImm (fieldX w) (fieldKK w)⟩ ]

/-- Rows 10 to 18 of R66: family 8. -/
def rowsFamily8 : List Row :=
  [ ⟨"LD_Vx__Vy", 0x8, .regX, .regY, .fixed 0x0, 0x8000, 0xF00F, fun w => .ldReg (fieldX w) (fieldY w)⟩,
    ⟨"OR_Vx__Vy", 0x8, .regX, .regY, .fixed 0x1, 0x8001, 0xF00F, fun w => .orReg (fieldX w) (fieldY w)⟩,
    ⟨"AND_Vx__Vy", 0x8, .regX, .regY, .fixed 0x2, 0x8002, 0xF00F, fun w => .andReg (fieldX w) (fieldY w)⟩,
    ⟨"XOR_Vx__Vy", 0x8, .regX, .regY, .fixed 0x3, 0x8003, 0xF00F, fun w => .xorReg (fieldX w) (fieldY w)⟩,
    ⟨"ADD_Vx__Vy", 0x8, .regX, .regY, .fixed 0x4, 0x8004, 0xF00F, fun w => .addReg (fieldX w) (fieldY w)⟩,
    ⟨"SUB_Vx__Vy", 0x8, .regX, .regY, .fixed 0x5, 0x8005, 0xF00F, fun w => .subReg (fieldX w) (fieldY w)⟩,
    ⟨"SHR_Vx", 0x8, .regX, .regY, .fixed 0x6, 0x8006, 0xF00F, fun w => .shr (fieldX w) (fieldY w)⟩,
    ⟨"SUBN_Vx__Vy", 0x8, .regX, .regY, .fixed 0x7, 0x8007, 0xF00F, fun w => .subnReg (fieldX w) (fieldY w)⟩,
    ⟨"SHL_Vx", 0x8, .regX, .regY, .fixed 0xE, 0x800E, 0xF00F, fun w => .shl (fieldX w) (fieldY w)⟩ ]

/-- Rows 19 to 25 of R66. -/
def rowsNineToE : List Row :=
  [ ⟨"SNER_Vx__Vy", 0x9, .regX, .regY, .fixed 0x0, 0x9000, 0xF00F, fun w => .sneReg (fieldX w) (fieldY w)⟩,
    ⟨"LD_I__nnn", 0xA, .imm12, .covered, .covered, 0xA000, 0xF000, fun w => .ldI (fieldNNN w)⟩,
    ⟨"JP_V0__nnn", 0xB, .imm12, .covered, .covered, 0xB000, 0xF000, fun w => .jpV0 (fieldNNN w)⟩,
    ⟨"RND_Vx__kk", 0xC, .regX, .imm8, .covered, 0xC000, 0xF000, fun w => .rnd (fieldX w) (fieldKK w)⟩,
    ⟨"DRW_Vx__Vy__n", 0xD, .regX, .regY, .imm4, 0xD000, 0xF000,
      fun w => .drw (fieldX w) (fieldY w) (fieldN w)⟩,
    ⟨"SKP_Vx", 0xE, .regX, .fixed 0x9, .fixed 0xE, 0xE09E, 0xF0FF, fun w => .skp (fieldX w)⟩,
    ⟨"SKNP_Vx", 0xE, .regX, .fixed 0xA, .fixed 0x1, 0xE0A1, 0xF0FF, fun w => .sknp (fieldX w)⟩ ]

/-- Rows 26 to 34 of R66: family F. -/
def rowsFamilyF : List Row :=
  [ ⟨"LD_Vx__DT", 0xF, .regX, .fixed 0x0, .fixed 0x7, 0xF007, 0xF0FF, fun w => .ldFromDt (fieldX w)⟩,
    ⟨"LD_Vx__K", 0xF, .regX, .fixed 0x0, .fixed 0xA, 0xF00A, 0xF0FF, fun w => .ldKey (fieldX w)⟩,
    ⟨"LD_DT__Vx", 0xF, .regX, .fixed 0x1, .fixed 0x5, 0xF015, 0xF0FF, fun w => .ldToDt (fieldX w)⟩,
    ⟨"LD_ST__Vx", 0xF, .regX, .fixed 0x1, .fixed 0x8, 0xF018, 0xF0FF, fun w => .ldToSt (fieldX w)⟩,
    ⟨"ADD_I__Vx", 0xF, .regX, .fixed 0x1, .fixed 0xE, 0xF01E, 0xF0FF, fun w => .addI (fieldX w)⟩,
    ⟨"LD_F__Vx", 0xF, .regX, .fixed 0x2, .fixed 0x9, 0xF029, 0xF0FF, fun w => .ldFont (fieldX w)⟩,
    ⟨"LD_B__Vx", 0xF, .regX, .fixed 0x3, .fixed 0x3, 0xF033, 0xF0FF, fun w => .ldBcd (fieldX w)⟩,
    ⟨"LD__I___Vx", 0xF, .regX, .fixed 0x5, .fixed 0x5, 0xF055, 0xF0FF, fun w => .storeRegs (fieldX w)⟩,
    ⟨"LD_Vx___I", 0xF, .regX, .fixed 0x6, .fixed 0x5, 0xF065, 0xF0FF, fun w => .loadRegs (fieldX w)⟩ ]

/-- The definition table of R66, in its order. -/
def definitionTable : List Row := rowsControl ++ rowsFamily8 ++ rowsNineToE ++ rowsFamilyF

/-- Why a decoding fails. -/
inductive Reject where
  /-- the word matches no entry of the table (R65, R69) -/
  | noMatch (op : Word)
  /-- fewer than two bytes were given; the machine never does so, since a fetch reads two (R60) -/
  | truncated
  deriving DecidableEq, Repr

/-- `Decode(op)` (R65): the first entry of the table that matches, with its operands resolved as R63 says. -/
def decode (w : Word) : Except Reject Instr :=
  match definitionTable.find? (fun r => r.admits w) with
  | some r => .ok (r.build w)
  | none => .error (.noMatch w)

/-- The opcode two bytes of RAM make: the byte at the lower address is the high byte (R40, R60). -/
def wordOfBytes (hi lo : Byte) : Word := hi ++ lo

/-- The decoder on a list of bytes, the lowest address first: an instruction and the bytes after it. -/
def decodeBytes : List Byte → Except Reject (Instr × List Byte)
  | hi :: lo :: rest =>
    match decode (wordOfBytes hi lo) with
    | .ok i => .ok (i, rest)
    | .error r => .error r
  | [_] => .error .truncated
  | [] => .error .truncated

/-- The high and the low byte of a word, in the order RAM holds them (R40). -/
def wordHi (w : Word) : Byte := w.extractLsb' 8 8
def wordLo (w : Word) : Byte := w.extractLsb' 0 8
def bytesOfWord (w : Word) : List Byte := [wordHi w, wordLo w]

/-- The word of an instruction, from the hexadecimal forms of R66. -/
def encode : Instr → Word
  | .cls => 0x00E0
  | .ret => 0x00EE
  | .jp nnn => 0x1#4 ++ nnn
  | .call nnn => 0x2#4 ++ nnn
  | .seImm x kk => 0x3#4 ++ x ++ kk
  | .sneImm x kk => 0x4#4 ++ x ++ kk
  | .seReg x y => 0x5#4 ++ x ++ y ++ 0x0#4
  | .ldImm x kk => 0x6#4 ++ x ++ kk
  | .addImm x kk => 0x7#4 ++ x ++ kk
  | .ldReg x y => 0x8#4 ++ x ++ y ++ 0x0#4
  | .orReg x y => 0x8#4 ++ x ++ y ++ 0x1#4
  | .andReg x y => 0x8#4 ++ x ++ y ++ 0x2#4
  | .xorReg x y => 0x8#4 ++ x ++ y ++ 0x3#4
  | .addReg x y => 0x8#4 ++ x ++ y ++ 0x4#4
  | .subReg x y => 0x8#4 ++ x ++ y ++ 0x5#4
  | .shr x y => 0x8#4 ++ x ++ y ++ 0x6#4
  | .subnReg x y => 0x8#4 ++ x ++ y ++ 0x7#4
  | .shl x y => 0x8#4 ++ x ++ y ++ 0xE#4
  | .sneReg x y => 0x9#4 ++ x ++ y ++ 0x0#4
  | .ldI nnn => 0xA#4 ++ nnn
  | .jpV0 nnn => 0xB#4 ++ nnn
  | .rnd x kk => 0xC#4 ++ x ++ kk
  | .drw x y n => 0xD#4 ++ x ++ y ++ n
  | .skp x => 0xE#4 ++ x ++ 0x9E#8
  | .sknp x => 0xE#4 ++ x ++ 0xA1#8
  | .ldFromDt x => 0xF#4 ++ x ++ 0x07#8
  | .ldKey x => 0xF#4 ++ x ++ 0x0A#8
  | .ldToDt x => 0xF#4 ++ x ++ 0x15#8
  | .ldToSt x => 0xF#4 ++ x ++ 0x18#8
  | .addI x => 0xF#4 ++ x ++ 0x1E#8
  | .ldFont x => 0xF#4 ++ x ++ 0x29#8
  | .ldBcd x => 0xF#4 ++ x ++ 0x33#8
  | .storeRegs x => 0xF#4 ++ x ++ 0x55#8
  | .loadRegs x => 0xF#4 ++ x ++ 0x65#8

/-- The two bytes of an instruction as RAM holds them (R60). -/
def encodeBytes (i : Instr) : List Byte := bytesOfWord (encode i)

/-- The host's question: what the decoder reads from an instruction whose low `nbits` bits are `w`, bit 0 the least
significant bit of the word, every bit above `nbits` zero, the bytes laid out as RAM holds them. -/
def decodeTableWord (nbits w : Nat) : Option Instr :=
  match decodeBytes (bytesOfWord (BitVec.ofNat 16 (w % 2 ^ nbits))) with
  | .ok (i, _) => some i
  | .error _ => none

end Sys2Proof
end

