-- ==== Sys2Proof/Config.lean ====
section
/-! DEFINITION. The parameters of 00_scope.md R6: the sizes the spec fixes, the launch parameters it leaves
open, and the one free value (the byte RND draws). -/

namespace Sys2Proof

/-- `TotalRAM`: RAM is the addresses 0x000 to 0xFFF (R6, R24). -/
abbrev Config.ramSize : Nat := 0x1000

/-- `FONT_BASE` (R6). -/
abbrev Config.fontBase : Nat := 0x100

/-- `FONT_SIZE`: 16 glyphs of 5 bytes (R6). -/
abbrev Config.fontSize : Nat := 80

/-- `PROG_BASE`: the program origin and the value of `pc` at reset (R6, R192). -/
abbrev Config.progBase : Nat := 0x200

/-- `PROG_MAX`: the longest program the load port accepts (R6, R48, C3). -/
abbrev Config.progMax : Nat := 3584

/-- `DisplayW`, in pixels (R6). -/
abbrev Config.displayW : Nat := 64

/-- `DisplayH`, in pixels (R6). -/
abbrev Config.displayH : Nat := 32

/-- `VRAM_SIZE`: 64 x 32 pixels, 8 to a byte (R6, R27). -/
abbrev Config.vramSize : Nat := 256

/-- The launch parameters the spec leaves open (R6, R32): `STACK_BASE` and `STACK_DEPTH`. They are not state of the
hardware; the state carries them so that a claim over all states is a claim over every legal choice (log 6). -/
structure Params where
  stackBase  : Nat
  stackDepth : Nat
  deriving DecidableEq, Repr

/-- `rnd` / `rnd_in` (R6, R122): the byte the k-th RND draws. FREE VALUE: it has no body, so nothing can be proved of
it beyond its type; a statement about RND holds whatever byte is drawn. DESIGN CHOICE of form, safe (log 3). -/
opaque Config.draw8 : Nat → Byte

end Sys2Proof
end

