-- ==== Sys2Proof/Machine/Memory.lean ====
section
/-! DEFINITION. The two byte stores, RAM and VRAM (10_state.md R24 to R28, 20_memory.md R44 to R47), as lists of
(address, byte) cells in one canonical form: addresses strictly rising, none outside the store, and no cell equal to
what an unlisted address reads as. -/

namespace Sys2Proof.Machine

/-- The cells of a store. `dflt` below is what an unlisted address reads as. -/
abbrev Cells := List Host.Cell

/-- One byte of a store. -/
def cellsRead (dflt : Nat → Byte) : Cells → Nat → Byte
  | [], a => dflt a
  | (b, v) :: m, a => if a = b then v else cellsRead dflt m a

/-- Put a cell at its place in rising order, replacing the one that is there. -/
def cellsInsert : Cells → Nat → Byte → Cells
  | [], a, v => [(a, v)]
  | (b, w) :: m, a, v =>
    if a < b then (a, v) :: (b, w) :: m
    else if a = b then (a, v) :: m
    else (b, w) :: cellsInsert m a v

/-- Take the cell of an address out. -/
def cellsErase : Cells → Nat → Cells
  | [], _ => []
  | (b, w) :: m, a => if a = b then m else (b, w) :: cellsErase m a

/-- Write one byte of a store of `size` bytes, keeping the canonical form: the value an unlisted address reads as
removes the cell. There is no byte at an address outside the store, so nothing is written there (log 13). -/
def cellsWrite (dflt : Nat → Byte) (size : Nat) (m : Cells) (a : Nat) (v : Byte) : Cells :=
  if size ≤ a then m
  else if v = dflt a then cellsErase m a
  else cellsInsert m a v

/-- The canonical form from address `lo` on. -/
def cellsWfFrom (dflt : Nat → Byte) (size : Nat) : Nat → Cells → Bool
  | _, [] => true
  | lo, (a, v) :: m => decide (lo ≤ a) && decide (a < size) && v != dflt a && cellsWfFrom dflt size (a + 1) m

/-! RAM -/

/-- `FONT_DATA`, glyphs 0 to 7 (R26). -/
def fontGlyphsLow : List Byte :=
  [0xF0, 0x90, 0x90, 0x90, 0xF0,  0x20, 0x60, 0x20, 0x20, 0x70,  0xF0, 0x10, 0xF0, 0x80, 0xF0,
   0xF0, 0x10, 0xF0, 0x10, 0xF0,  0x90, 0x90, 0xF0, 0x10, 0x10,  0xF0, 0x80, 0xF0, 0x10, 0xF0,
   0xF0, 0x80, 0xF0, 0x90, 0xF0,  0xF0, 0x10, 0x20, 0x40, 0x40]

/-- `FONT_DATA`, glyphs 8 to F (R26). -/
def fontGlyphsHigh : List Byte :=
  [0xF0, 0x90, 0xF0, 0x90, 0xF0,  0xF0, 0x90, 0xF0, 0x10, 0xF0,  0xF0, 0x90, 0xF0, 0x90, 0x90,
   0xE0, 0x90, 0xE0, 0x90, 0xE0,  0xF0, 0x80, 0x80, 0x80, 0xF0,  0xE0, 0x90, 0x90, 0x90, 0xE0,
   0xF0, 0x80, 0xF0, 0x80, 0xF0,  0xF0, 0x80, 0xF0, 0x80, 0x80]

/-- `FONT_DATA`: the glyph table of R26. PRESUMED (the spec marks it general knowledge, G3), unsafe for a claim about
the glyphs' pixels (log 5). -/
def fontData : List Byte := fontGlyphsLow ++ fontGlyphsHigh

/-- What a RAM byte that nothing has written reads as: the font where the font is (R26, R29); elsewhere 0x00, the
simulation default of `RAM_INIT` (R29, R191). DESIGN CHOICE, unsafe for a claim about the reset state (log 4). -/
def resetByte (a : Nat) : Byte :=
  if Config.fontBase ≤ a ∧ a < Config.fontBase + Config.fontSize then fontData.getD (a - Config.fontBase) 0 else 0

/-- RAM (R24, R25). -/
abbrev Memory := Cells

/-- `RAM[a]` (R8). -/
def Memory.read (m : Memory) (a : Nat) : Byte := cellsRead resetByte m a

/-- `RAM[a] <- v` (R8). -/
def Memory.write (m : Memory) (a : Nat) (v : Byte) : Memory := cellsWrite resetByte Config.ramSize m a v

/-- The canonical form of RAM. -/
def Memory.wf (m : Memory) : Bool := cellsWfFrom resetByte Config.ramSize 0 m

/-- The `n` bytes `RAM[a] .. RAM[a+n-1]`. -/
def Memory.readBytes (m : Memory) : Nat → Nat → List Byte
  | _, 0 => []
  | a, n + 1 => Memory.read m a :: Memory.readBytes m (a + 1) n

/-- Store bytes at `a, a+1, ..`, in rising order. -/
def Memory.writeBytes (m : Memory) : Nat → List Byte → Memory
  | _, [] => m
  | a, b :: bs => Memory.writeBytes (Memory.write m a b) (a + 1) bs

/-- The 16-bit value `RAM[a] ++ RAM[a+1]`: big-endian (R40, R44). -/
def Memory.readWord (m : Memory) (a : Nat) : Word := Memory.read m a ++ Memory.read m (a + 1)

/-- The store counterpart: high byte at the lower address (R45). -/
def Memory.writeWord (m : Memory) (a : Nat) (v : Word) : Memory :=
  Memory.writeBytes m a [v.extractLsb' 8 8, v.extractLsb' 0 8]

/-- The bounds check of R44 and R45, on the unbounded sum: the `n` bytes from `addr` lie in RAM. -/
def inRange (addr n : Nat) : Bool := decide (addr + n ≤ Config.ramSize)

/-- The stack parameters of a simulation: `STACK_BASE = 0x000`, `STACK_DEPTH = 16` (R6, R47). DESIGN CHOICE, unsafe
for a claim about `State.reset` alone (log 6). -/
def defaultParams : Params := { stackBase := 0x000, stackDepth := 16 }

/-! VRAM -/

/-- VRAM (R24, R27): 256 bytes; an unlisted byte is 0x00 (R29). -/
abbrev Framebuffer := Cells

/-- `VRAM[k]`. -/
def Framebuffer.read (f : Framebuffer) (k : Nat) : Byte := cellsRead (fun _ => 0) f k

/-- `VRAM[k] <- v`. -/
def Framebuffer.write (f : Framebuffer) (k : Nat) (v : Byte) : Framebuffer :=
  cellsWrite (fun _ => 0) Config.vramSize f k v

/-- The canonical form of VRAM. -/
def Framebuffer.wf (f : Framebuffer) : Bool := cellsWfFrom (fun _ => 0) Config.vramSize 0 f

/-- The 256 bytes as a list, what the framebuffer port returns (R199). -/
def Framebuffer.bytes (f : Framebuffer) : List Byte := (List.range Config.vramSize).map (Framebuffer.read f)

/-- The byte of VRAM that holds the pixel at column `cx`, row `cy` (R28). -/
def pixelByte (cx cy : Nat) : Nat := 8 * cy + cx / 8

/-- Its bit in that byte (R28): the most significant bit is the leftmost pixel. -/
def pixelBit (cx : Nat) : Nat := 7 - cx % 8

/-- `FB(cx, cy)` (R28). -/
def Framebuffer.pixel (f : Framebuffer) (cx cy : Nat) : Bool :=
  (Framebuffer.read f (pixelByte cx cy)).getLsbD (pixelBit cx)

/-- A byte with bit `k` set to `b`, the other bits unchanged. -/
def setBit (v : Byte) (k : Nat) (b : Bool) : Byte :=
  if b then v ||| (1#8 <<< k) else v &&& ~~~(1#8 <<< k)

/-- `FB(cx, cy) <- b` (R28). -/
def Framebuffer.setPixel (f : Framebuffer) (cx cy : Nat) (b : Bool) : Framebuffer :=
  Framebuffer.write f (pixelByte cx cy) (setBit (Framebuffer.read f (pixelByte cx cy)) (pixelBit cx) b)

end Sys2Proof.Machine
end

