-- ==== Sys2Proof/Machine/State.lean ====
section
/-! DEFINITION. The state of the machine (10_state.md), the reasons a step can stop, and the state after reset. -/

namespace Sys2Proof.Machine

/-- Everything the spec gives the machine (R10 to R28), and two fields of the model's own (`params`, `draws`). -/
structure State where
  /-- `V[0]` to `V[15]` (R10, R11) -/
  v          : Vector Byte 16
  /-- the index register `I` (R14) -/
  i          : Word
  /-- the delay timer `DT` (R15) -/
  dt         : Byte
  /-- the sound timer `ST` (R16) -/
  st         : Byte
  /-- the program counter (R12) -/
  pc         : Word
  /-- the stack pointer: the number of return addresses on the stack (R17) -/
  sp         : Byte
  /-- the 4096 bytes of RAM, the stack among them (R18, R24, R25) -/
  ram        : Memory
  /-- the 256 bytes of VRAM (R24, R27) -/
  vram       : Framebuffer
  /-- `Dirty` (R21) -/
  dirty      : Bool
  /-- `Terminated` (R19) -/
  terminated : Bool
  /-- the fault code `ERR` (R20, R160) -/
  err        : BitVec 3
  /-- the fault datum `ERR_INFO` (R20, R160) -/
  errInfo    : Word
  /-- THE MODEL'S OWN: the launch parameters (R6, R32); no step writes them (log 6) -/
  params     : Params
  /-- THE MODEL'S OWN: how many bytes RND has drawn, the index of the next free value (R122; log 3) -/
  draws      : Nat
  deriving DecidableEq, Repr

/-- The error kinds of R160. They are taken, not stopped on: `raise` answers a next state. -/
inductive ErrorKind where
  | decodeError
  | memoryBounds
  | loadTooLarge
  | stackOverflow
  | stackUnderflow
  | fetchMisaligned
  deriving DecidableEq, Repr

/-- Why `step` has no next state: no step is enabled (R80, R197, U23). -/
inductive Fault where
  /-- `Terminated = 1` and `ERR = 0`: raised by `step` only. Safe: the spec has no transition there (log 1). -/
  | terminated
  /-- `ERR ≠ 0`: raised by `step` only. Safe: the spec has no transition there (log 1). -/
  | faulted
  deriving DecidableEq, Repr

/-- What the model declines to do. -/
inductive Refusal where
  /-- an instruction without a meaning: raised by an arm of `exec`; no arm does so. Safe. -/
  | notModelled (mnemonic : String)
  /-- the host's Load where it is no move (R195, R196, U22): raised by `perform` only, never by a step. Safe. -/
  | loadNotEnabled
  deriving DecidableEq, Repr

/-- What a meaning answers. -/
abbrev Result := Host.Outcome State Fault Refusal

/-- The state after reset (R29, R190), with `RAM_INIT` zero and the default stack parameters (logs 3, 4, 6). -/
def State.reset : State where
  v          := Vector.replicate 16 0
  i          := 0
  dt         := 0
  st         := 0
  pc         := 0x0200
  sp         := 0
  ram        := []
  vram       := []
  dirty      := false
  terminated := false
  err        := 0
  errInfo    := 0
  params     := defaultParams
  draws      := 0

end Sys2Proof.Machine
end

