-- ==== Sys2Proof/Machine/Ops.lean ====
section
/-! DEFINITION. The named operations over registers and memory, raising a fault, the fetch and the stack. -/

namespace Sys2Proof.Machine

/-! Registers -/

/-- `V[x]` (R8, R10). -/
def State.getV (s : State) (x : RegIx) : Byte := s.v[x.toNat]

/-- `V[x] <- b` (R8, R10): no register is hardwired. -/
def State.setV (s : State) (x : RegIx) (b : Byte) : State := { s with v := s.v.set x.toNat b }

def State.setI (s : State) (w : Word) : State := { s with i := w }
def State.setDt (s : State) (b : Byte) : State := { s with dt := b }
def State.setSt (s : State) (b : Byte) : State := { s with st := b }
def State.setPc (s : State) (w : Word) : State := { s with pc := w }
def State.setSp (s : State) (b : Byte) : State := { s with sp := b }
def State.setRam (s : State) (m : Memory) : State := { s with ram := m }
def State.setVram (s : State) (f : Framebuffer) : State := { s with vram := f }
def State.setDirty (s : State) (b : Bool) : State := { s with dirty := b }
def State.setTerminated (s : State) (b : Bool) : State := { s with terminated := b }

/-- The free value is taken: the next RND draws another (R122; log 3). -/
def State.drawn (s : State) : State := { s with draws := s.draws + 1 }

/-- `V[15]`, the flag register (R11). -/
abbrev vf : RegIx := 0xF#4

/-! The program counter (R82) -/

/-- The ordinary advance: `pc + 2`. -/
def State.advance (s : State) : State := s.setPc (s.pc + 2)

/-- Past the next instruction: `pc + 4` (R104). -/
def State.advanceTwice (s : State) : State := s.setPc (s.pc + 4)

/-! Taking a fault -/

/-- The codes of R160. -/
def ErrorKind.code : ErrorKind → BitVec 3
  | .decodeError => 1
  | .memoryBounds => 2
  | .loadTooLarge => 3
  | .stackOverflow => 4
  | .stackUnderflow => 5
  | .fetchMisaligned => 6

/-- `raise F(info)` (R165): `ERR` and `ERR_INFO` are written and nothing else; every rule checks before it writes, so
there is nothing to discard. There is no handler and no return from a fault (R169). -/
def State.raise (s : State) (k : ErrorKind) (info : Word) : State := { s with err := k.code, errInfo := info }

/-- A step that ends in a fault: the fault is taken, in a next state (R165; log 1). -/
def trap (k : ErrorKind) (info : Word) (s : State) : Result := .next (s.raise k info)

/-! Memory through the state -/

/-- `Fetch(pc)` (R46): the misalignment check first, then the range check, then the big-endian read. -/
def fetch (s : State) : Except (ErrorKind × Word) Word :=
  if s.pc.getLsbD 0 then .error (.fetchMisaligned, s.pc)
  else if inRange s.pc.toNat 2 then .ok (s.ram.readWord s.pc.toNat)
  else .error (.memoryBounds, s.pc)

/-- A data access of `n` bytes at `I` (R136, R162): the whole range is checked before anything is written; out of
range, `MemoryBoundsError(I)` is raised and nothing else happens. -/
def withDataRange (n : Nat) (s : State) (t : State) : Result :=
  if inRange s.i.toNat n then .next t else trap .memoryBounds s.i s

/-- Load registers `V[k], V[k+1], ..` from bytes (R135). -/
def State.loadFrom (s : State) : Nat → List Byte → State
  | _, [] => s
  | k, b :: bs => State.loadFrom (s.setV (BitVec.ofNat 4 k) b) (k + 1) bs

/-! The stack, which is RAM (R18, R49) -/

/-- The RAM address of stack entry `k` (R18). -/
def stackAddr (s : State) (k : Nat) : Nat := s.params.stackBase + 2 * k

/-- Push a 16-bit value: entry `SP` is written big-endian and `SP` counts it (R85). -/
def State.push (s : State) (w : Word) : State :=
  (s.setRam (s.ram.writeWord (stackAddr s s.sp.toNat) w)).setSp (s.sp + 1)

/-- The top entry, read from RAM now (R86). -/
def State.top (s : State) : Word := s.ram.readWord (stackAddr s (s.sp.toNat - 1))

/-- Pop: only `SP` changes, the bytes stay (R86, R49). -/
def State.pop (s : State) : State := s.setSp (s.sp - 1)

end Sys2Proof.Machine
end

