-- ==== Sys2Proof/Machine/Flags.lean ====
section
/-! DEFINITION. The flag computations, all into `V[15]` (R11, R13), and the order of result and flag (42_alu.md R113). -/

namespace Sys2Proof.Machine

/-- `zext_8` of a flag: 0x00 or 0x01 (R113). -/
def flagByte (b : Bool) : Byte := if b then 0x01 else 0x00

/-- Carry out of bit 7 of `a + b` (R117). -/
def carryOut (a b : Byte) : Bool := decide (a.toNat + b.toNat > 0xFF)

/-- The flag of a subtraction `a - b`: strictly greater, so equal operands give 0 (R118, R120). -/
def notBorrow (a b : Byte) : Bool := decide (a.toNat > b.toNat)

/-- The bit a right shift shifts out (R119). -/
def shiftedOutRight (a : Byte) : Bool := a.getLsbD 0

/-- The bit a left shift shifts out (R121). -/
def shiftedOutLeft (a : Byte) : Bool := a.getLsbD 7

/-- Steps 4 and 5 of R113 and the advance: the result, then the flag over it, so that with `x = 0xF` the flag wins. -/
def writeResultThenFlag (x : RegIx) (r : Byte) (flag : Bool) (s : State) : Result :=
  .next ((s.setV x r).setV vf (flagByte flag)).advance

end Sys2Proof.Machine
end

