-- ==== Sys2Proof/Machine/Operands.lean ====
section
/-! DEFINITION. Operand forms and the values formed from operands (R63, R132, R133, R134, R136, R142). -/

namespace Sys2Proof.Machine

/-- `EA(i) = I + i`, an unbounded integer (R136). -/
def effectiveAddress (s : State) (i : Nat) : Nat := s.i.toNat + i

/-- The address of the font glyph of the low nibble of a register (R132). -/
def glyphAddress (b : Byte) : Word := 0x0100 + 5 * zext16 (b.extractLsb' 0 4)

/-- The decimal digits of a byte, hundreds first (R133). -/
def bcdDigits (b : Byte) : List Byte :=
  [BitVec.ofNat 8 (b.toNat / 100), BitVec.ofNat 8 (b.toNat / 10 % 10), BitVec.ofNat 8 (b.toNat % 10)]

/-- `V[k], V[k+1], ..`, `n` of them. -/
def State.regsFrom (s : State) : Nat → Nat → List Byte
  | _, 0 => []
  | k, n + 1 => s.getV (BitVec.ofNat 4 k) :: State.regsFrom s (k + 1) n

/-- `V[0]` to `V[x]` inclusive (R134). -/
def State.regsUpTo (s : State) (x : RegIx) : List Byte := s.regsFrom 0 (x.toNat + 1)

/-- The column a sprite is drawn from: 0 when its 8 columns would pass the right edge (R142). The sum is an unbounded
integer. -/
def snapColumn (vx : Byte) : Nat := if vx.toNat + 8 > Config.displayW then 0 else vx.toNat

end Sys2Proof.Machine
end

