-- ==== Sys2Proof/Machine/Alu.lean ====
section
/-! DEFINITION. Register load, arithmetic, logic, shifts, random (42_alu.md R110 to R122). -/

namespace Sys2Proof.Machine

/-- Write one register and advance: the instructions without a flag. -/
def writeReg (x : RegIx) (r : Byte) (s : State) : Result := .next (s.setV x r).advance

/-- `LD Vx, kk` (R110). -/
def execLdImm (x : RegIx) (kk : Byte) (s : State) : Result := writeReg x kk s

/-- `ADD Vx, kk` (R111): wraps, no flag. -/
def execAddImm (x : RegIx) (kk : Byte) (s : State) : Result := writeReg x (s.getV x + kk) s

/-- `LD Vx, Vy` (R112). -/
def execLdReg (x y : RegIx) (s : State) : Result := writeReg x (s.getV y) s

/-- `OR Vx, Vy` (R114): no flag. -/
def execOrReg (x y : RegIx) (s : State) : Result := writeReg x (s.getV x ||| s.getV y) s

/-- `AND Vx, Vy` (R115): no flag. -/
def execAndReg (x y : RegIx) (s : State) : Result := writeReg x (s.getV x &&& s.getV y) s

/-- `XOR Vx, Vy` (R116): no flag. -/
def execXorReg (x y : RegIx) (s : State) : Result := writeReg x (s.getV x ^^^ s.getV y) s

/-- `ADD Vx, Vy` (R117). -/
def execAddReg (x y : RegIx) (s : State) : Result :=
  writeResultThenFlag x (s.getV x + s.getV y) (carryOut (s.getV x) (s.getV y)) s

/-- `SUB Vx, Vy` (R118): `Vx - Vy`. -/
def execSubReg (x y : RegIx) (s : State) : Result :=
  writeResultThenFlag x (s.getV x - s.getV y) (notBorrow (s.getV x) (s.getV y)) s

/-- `SUBN Vx, Vy` (R120): `Vy - Vx`. -/
def execSubnReg (x y : RegIx) (s : State) : Result :=
  writeResultThenFlag x (s.getV y - s.getV x) (notBorrow (s.getV y) (s.getV x)) s

/-- `SHR Vx` (R119): `V[x]` is shifted, the `y` field is not read. -/
def execShr (x _y : RegIx) (s : State) : Result :=
  writeResultThenFlag x (s.getV x >>> 1) (shiftedOutRight (s.getV x)) s

/-- `SHL Vx` (R121): `V[x]` is shifted, the `y` field is not read. -/
def execShl (x _y : RegIx) (s : State) : Result :=
  writeResultThenFlag x (s.getV x <<< 1) (shiftedOutLeft (s.getV x)) s

/-- `RND Vx, kk` (R122): the byte drawn is the free value `Config.draw8` at the state's counter, under the mask
(log 3). -/
def execRnd (x : RegIx) (kk : Byte) (s : State) : Result :=
  .next ((s.setV x (Config.draw8 s.draws &&& kk)).drawn).advance

end Sys2Proof.Machine
end

