-- ==== Sys2Proof/Machine/ControlFlow.lean ====
section
/-! DEFINITION. JP, JP V0, CALL, RET (40_control_flow.md R83 to R86). No transfer checks its target (R88). -/

namespace Sys2Proof.Machine

/-- `JP nnn` (R83): a jump to its own address sets `Terminated`. -/
def execJp (nnn : Addr12) (s : State) : Result :=
  .next ((s.setTerminated (s.terminated || zext16 nnn == s.pc)).setPc (zext16 nnn))

/-- `JP V0, nnn` (R84): a 16-bit sum, not masked; it never sets `Terminated`. -/
def execJpV0 (nnn : Addr12) (s : State) : Result :=
  .next (s.setPc (zext16 nnn + zext16 (s.getV 0)))

/-- `CALL nnn` (R85). -/
def execCall (nnn : Addr12) (s : State) : Result :=
  if s.sp.toNat = s.params.stackDepth then trap .stackOverflow 0 s
  else .next ((s.push (s.pc + 2)).setPc (zext16 nnn))

/-- `RET` (R86). -/
def execRet (s : State) : Result :=
  if s.sp.toNat = 0 then trap .stackUnderflow 0 s
  else .next (s.pop.setPc s.top)

end Sys2Proof.Machine
end

