-- ==== Sys2Proof/Machine/Display.lean ====
section
/-! DEFINITION. Display instructions (44_display.md R140 to R144): the per-pixel loop of R141, which is normative, and
beside it the byte-block realisation of R144. -/

namespace Sys2Proof.Machine

/-- What a draw carries through its loops: VRAM and the collision so far. -/
structure Canvas where
  vram : Framebuffer
  coll : Bool
  deriving DecidableEq, Repr

/-- The innermost action of R141: toggle one pixel; a lit one that goes out is a collision. -/
def drawPixel (cx cy : Nat) (c : Canvas) : Canvas :=
  { vram := c.vram.setPixel cx cy (!c.vram.pixel cx cy), coll := c.coll || c.vram.pixel cx cy }

/-- Column `c` of a sprite row: bit `7 - c` of its byte, bit 7 leftmost; a 0 bit touches nothing (R141). -/
def drawColumn (b : Byte) (x0 row : Nat) (cv : Canvas) (c : Nat) : Canvas :=
  if b.getLsbD (7 - c) then drawPixel (x0 + c) row cv else cv

/-- One sprite row: columns 0 to 7 (R141). -/
def drawRow (b : Byte) (x0 row : Nat) (cv : Canvas) : Canvas := (List.range 8).foldl (drawColumn b x0 row) cv

/-- The rows of a sprite from display row `y` on; the destination wraps vertically and never clips (R141). -/
def drawRows : List Byte → Nat → Nat → Canvas → Canvas
  | [], _, _, cv => cv
  | b :: bs, x0, y, cv => drawRows bs x0 (y + 1) (drawRow b x0 (y % Config.displayH) cv)

/-- `CLS` (R140): `V[15]` is not written. -/
def execCls (s : State) : Result := .next ((s.setVram []).setDirty true).advance

/-- What DRW leaves, given the canvas after its loops (R141). -/
def State.drawnOn (s : State) (cv : Canvas) : State :=
  (((s.setVram cv.vram).setV vf (flagByte cv.coll)).setDirty true).advance

/-- `DRW Vx, Vy, n` (R141, R143): the coordinates are read before `V[15]` is written; the bound is the literal
`I + n >= 0x1000`, checked for `n = 0` too. -/
def execDrw (x y : RegIx) (n : Nibble) (s : State) : Result :=
  if effectiveAddress s n.toNat ≥ Config.ramSize then trap .memoryBounds s.i s
  else
    .next (s.drawnOn (drawRows (s.ram.readBytes (effectiveAddress s 0) n.toNat) (snapColumn (s.getV x))
      (s.getV y).toNat { vram := s.vram, coll := false }))

/-! The byte-block realisation (R144) -/

/-- XOR a byte of VRAM; the collision is a lit pixel both share. -/
def xorByte (k : Nat) (b : Byte) (c : Canvas) : Canvas :=
  { vram := c.vram.write k (c.vram.read k ^^^ b), coll := c.coll || c.vram.read k &&& b != 0 }

/-- One sprite row as one or two byte operations: `VRAM[k] ^= b >> s` and, when `s ≠ 0`, `VRAM[k+1] ^= b << (8 - s)`,
with `s = x0 mod 8` and `k = 8*row + x0 div 8` (R144). -/
def drawRowBlock (b : Byte) (x0 row : Nat) (cv : Canvas) : Canvas :=
  if x0 % 8 = 0 then xorByte (8 * row + x0 / 8) b cv
  else xorByte (8 * row + x0 / 8 + 1) (b <<< (8 - x0 % 8)) (xorByte (8 * row + x0 / 8) (b >>> (x0 % 8)) cv)

/-- The rows of a sprite, byte by byte. -/
def drawRowsBlock : List Byte → Nat → Nat → Canvas → Canvas
  | [], _, _, cv => cv
  | b :: bs, x0, y, cv => drawRowsBlock bs x0 (y + 1) (drawRowBlock b x0 (y % Config.displayH) cv)

end Sys2Proof.Machine
end

