-- ==== Sys2Proof/Machine/Index.lean ====
section
/-! DEFINITION. Index register and memory instructions (43_index_memory.md R130 to R136). `I` is changed by the first
three only (R136). -/

namespace Sys2Proof.Machine

/-- `LD I, nnn` (R130). -/
def execLdI (nnn : Addr12) (s : State) : Result := .next (s.setI (zext16 nnn)).advance

/-- `ADD I, Vx` (R131): 16-bit wrap, no flag. -/
def execAddI (x : RegIx) (s : State) : Result := .next (s.setI (s.i + zext16 (s.getV x))).advance

/-- `LD F, Vx` (R132). -/
def execLdFont (x : RegIx) (s : State) : Result := .next (s.setI (glyphAddress (s.getV x))).advance

/-- Store bytes at `I`, `I+1`, .. after the range check (R45, R136). -/
def storeAtI (bs : List Byte) (s : State) : Result :=
  withDataRange bs.length s (s.setRam (s.ram.writeBytes (effectiveAddress s 0) bs)).advance

/-- `LD B, Vx` (R133). -/
def execLdBcd (x : RegIx) (s : State) : Result := storeAtI (bcdDigits (s.getV x)) s

/-- `LD [I], Vx` (R134). -/
def execStoreRegs (x : RegIx) (s : State) : Result := storeAtI (s.regsUpTo x) s

/-- `LD Vx, [I]` (R135). -/
def execLoadRegs (x : RegIx) (s : State) : Result :=
  withDataRange (x.toNat + 1) s
    (s.loadFrom 0 (s.ram.readBytes (effectiveAddress s 0) (x.toNat + 1))).advance

end Sys2Proof.Machine
end

