-- ==== Sys2Proof/Machine/KeysTimers.lean ====
section
/-! DEFINITION. Key stubs and timer instructions (45_keys_timers.md R150 to R155). -/

namespace Sys2Proof.Machine

/-- `SKP Vx` (R150): a stub, never skips; `V[x]` is not read. -/
def execSkp (_x : RegIx) (s : State) : Result := .next s.advance

/-- `SKNP Vx` (R151): a stub, never skips. -/
def execSknp (_x : RegIx) (s : State) : Result := .next s.advance

/-- `LD Vx, K` (R152): a stub, completes at once with 0. -/
def execLdKey (x : RegIx) (s : State) : Result := .next (s.setV x 0x00).advance

/-- `LD Vx, DT` (R153). -/
def execLdFromDt (x : RegIx) (s : State) : Result := .next (s.setV x s.dt).advance

/-- `LD DT, Vx` (R154). -/
def execLdToDt (x : RegIx) (s : State) : Result := .next (s.setDt (s.getV x)).advance

/-- `LD ST, Vx` (R155). -/
def execLdToSt (x : RegIx) (s : State) : Result := .next (s.setSt (s.getV x)).advance

end Sys2Proof.Machine
end

