-- ==== Sys2Proof/Machine/Skips.lean ====
section
/-! DEFINITION. The four conditional skips (41_skips.md R100 to R104). -/

namespace Sys2Proof.Machine

/-- Common to the four (R104): `pc + 4` when the condition holds, else `pc + 2`; nothing else changes. -/
def skipIf (c : Bool) (s : State) : Result :=
  .next (if c then s.advanceTwice else s.advance)

/-- `SE Vx, kk` (R100). -/
def execSeImm (x : RegIx) (kk : Byte) (s : State) : Result := skipIf (s.getV x == kk) s

/-- `SNE Vx, kk` (R101). -/
def execSneImm (x : RegIx) (kk : Byte) (s : State) : Result := skipIf (s.getV x != kk) s

/-- `SER Vx, Vy` (R102). -/
def execSeReg (x y : RegIx) (s : State) : Result := skipIf (s.getV x == s.getV y) s

/-- `SNER Vx, Vy` (R103). -/
def execSneReg (x y : RegIx) (s : State) : Result := skipIf (s.getV x != s.getV y) s

end Sys2Proof.Machine
end

