-- ==== Sys2Proof/Machine/Step.lean ====
section
/-! DEFINITION. One step (40_control_flow.md R80). -/

namespace Sys2Proof.Machine

/-- `Step()` (R80): enabled only in the Running state; fetch, decode, execute. A fetch or decode fault is taken in a
next state (R161, R165, R168). Where no step is enabled the answer is a stuck fault (R197, U23; log 1). -/
def step (s : State) : Host.Outcome State Fault Refusal :=
  if s.err != 0 then .fault .faulted
  else if s.terminated then .fault .terminated
  else
    match fetch s with
    | .error (k, info) => trap k info s
    | .ok op =>
      match decode op with
      | .error _ => trap .decodeError op s
      | .ok i => exec i s

/-- The host's question: `s` with the instruction of bits `w` stored where `step` fetches next, at `pc`, in the byte
order of R40 (log 9). -/
def State.withFetchWord (s : State) (nbits w : Nat) : State :=
  s.setRam (s.ram.writeWord s.pc.toNat (BitVec.ofNat 16 (w % 2 ^ nbits)))

end Sys2Proof.Machine
end

