-- ==== Sys2Proof/Machine/HostPort.lean ====
section
/-! DEFINITION. The host's actions (70_reset_and_hazards.md R190 to R200, 60_exceptions.md R176). Each is atomic and
happens between steps (R50); `step` holds none of them, so a claim about schedules is a claim about lists of `Action`
(log 2). -/

namespace Sys2Proof.Machine

/-! Reset and launch -/

/-- RAM with `RAM_INIT` at every byte outside the font (R29): the cells name bytes of RAM, a later one for the same
address wins, an address not named reads 0x00 (log 4). -/
def launchRam : List Host.Cell → Memory → Memory
  | [], m => m
  | (a, v) :: cells, m =>
    if Config.fontBase ≤ a ∧ a < Config.fontBase + Config.fontSize then launchRam cells m
    else launchRam cells (m.write a v)

/-- The state of a launch with the parameters given (R29, R190, R191). `draws` goes on counting, so that a byte drawn
after a reset is not the byte drawn before it (log 3). -/
def launch (params : Params) (ramInit : List Host.Cell) (draws : Nat) : State :=
  { State.reset with ram := launchRam ramInit [], params := params, draws := draws }

/-! What the host does to the machine -/

/-- `TimerTick` (R176): each timer that is not zero goes down by one. -/
def countDown (b : Byte) : Byte := if b = 0 then 0 else b - 1

def State.timerTick (s : State) : State := (s.setDt (countDown s.dt)).setSt (countDown s.st)

/-- `DirtyAck` (R199). -/
def State.dirtyAck (s : State) : State := s.setDirty false

/-- `Load(bytes, len)` (R196): the bytes verbatim at 0x200, or `LoadTooLargeError` and no byte copied (R167). -/
def State.load (s : State) (bytes : List Byte) : State :=
  if bytes.length > Config.progMax then s.raise .loadTooLarge 0
  else s.setRam (s.ram.writeBytes Config.progBase bytes)

/-! What the host reads (R199, R200) -/

/-- `FbRead` (R199): the 256 bytes of VRAM and `Dirty`; the state is not touched. -/
def State.fbRead (s : State) : List Byte × Bool := (s.vram.bytes, s.dirty)

/-- `StatusRead` (R200). -/
def State.statusRead (s : State) : Bool × BitVec 3 × Word := (s.terminated, s.err, s.errInfo)

/-- `StateRead` (R200): the whole state is an output. -/
def State.stateRead (s : State) : State := s

/-! `Step` and `Run` as the host sees them -/

/-- The three results of `Step` (R197). -/
inductive StepReport where
  | stepped
  | fault
  | notEnabled
  deriving DecidableEq, Repr

/-- `Step` (R197): where no step is enabled nothing changes. -/
def hostStep (s : State) : StepReport × State :=
  match step s with
  | .next t => (if t.err = 0 then .stepped else .fault, t)
  | .fault _ => (.notEnabled, s)
  | .refused _ => (.notEnabled, s)

/-- How `Run` ends (R198). -/
inductive RunEnd where
  | halted
  | fault (code : BitVec 3) (info : Word)
  | stepBound
  deriving DecidableEq, Repr

/-- `Run(max_steps)` (R198): fault, then halt, then budget, each tested before the next step (D40). -/
def run : Nat → State → RunEnd × State
  | 0, s =>
    if s.err ≠ 0 then (.fault s.err s.errInfo, s)
    else if s.terminated then (.halted, s)
    else (.stepBound, s)
  | n + 1, s =>
    if s.err ≠ 0 then (.fault s.err s.errInfo, s)
    else if s.terminated then (.halted, s)
    else run n (hostStep s).2

/-! The host's moves, and schedules of them (R195) -/

/-- A machine and what the load port must remember: that no Load and no Step has happened since Reset (R196; log 8). -/
structure Session where
  machine : State
  mayLoad : Bool
  deriving DecidableEq, Repr

/-- The actions of R195 that can change something. The reads (`fbRead`, `statusRead`, `stateRead`) change nothing. -/
inductive Action where
  /-- a fresh launch with the `RAM_INIT` given (R190, R191) -/
  | reset (ramInit : List Host.Cell)
  | load (bytes : List Byte)
  | step
  | runFor (maxSteps : Nat)
  | timerTick
  | dirtyAck
  deriving DecidableEq, Repr

/-- One move of the host. Step and Run close the load port; a Step that is not enabled changes nothing (R197); a Load
that is not directly after Reset is no move (U22). -/
def perform (a : Action) (h : Session) : Host.Outcome Session Fault Refusal :=
  match a with
  | .reset ramInit => .next { machine := launch h.machine.params ramInit h.machine.draws, mayLoad := true }
  | .load bytes =>
    if h.mayLoad then .next { machine := h.machine.load bytes, mayLoad := false } else .refused .loadNotEnabled
  | .step => .next { machine := (hostStep h.machine).2, mayLoad := false }
  | .runFor maxSteps => .next { machine := (run maxSteps h.machine).2, mayLoad := h.mayLoad && maxSteps == 0 }
  | .timerTick => .next { h with machine := h.machine.timerTick }
  | .dirtyAck => .next { h with machine := h.machine.dirtyAck }

/-- A schedule of moves, in order; it ends at the first that is no move. -/
def performAll : List Action → Session → Host.Outcome Session Fault Refusal
  | [], h => .next h
  | a :: as, h =>
    match perform a h with
    | .next h' => performAll as h'
    | .fault f => .fault f
    | .refused r => .refused r

end Sys2Proof.Machine
end

