-- ==== Sys2Proof/WellFormed.lean ====
section
/-! DEFINITION. What is checked of the terms a launch and a decoder handle: instructions, launch parameters, program
images. -/

namespace Sys2Proof

/-- A register operand names a register that exists (R10: the register file has 16 registers). -/
def RegIx.wf (x : RegIx) : Bool := decide (x.toNat < 16)

/-- Every register operand names an existing register. The operand TYPES are the fields' widths (R63), so this check
refuses no term: "no instruction can name a register that does not exist" (R10). -/
def Instr.wf : Instr → Bool
  | .cls => true
  | .ret => true
  | .jp _ => true
  | .call _ => true
  | .seImm x _ => RegIx.wf x
  | .sneImm x _ => RegIx.wf x
  | .seReg x y => RegIx.wf x && RegIx.wf y
  | .ldImm x _ => RegIx.wf x
  | .addImm x _ => RegIx.wf x
  | .ldReg x y => RegIx.wf x && RegIx.wf y
  | .orReg x y => RegIx.wf x && RegIx.wf y
  | .andReg x y => RegIx.wf x && RegIx.wf y
  | .xorReg x y => RegIx.wf x && RegIx.wf y
  | .addReg x y => RegIx.wf x && RegIx.wf y
  | .subReg x y => RegIx.wf x && RegIx.wf y
  | .shr x y => RegIx.wf x && RegIx.wf y
  | .subnReg x y => RegIx.wf x && RegIx.wf y
  | .shl x y => RegIx.wf x && RegIx.wf y
  | .sneReg x y => RegIx.wf x && RegIx.wf y
  | .ldI _ => true
  | .jpV0 _ => true
  | .rnd x _ => RegIx.wf x
  | .drw x y _ => RegIx.wf x && RegIx.wf y
  | .skp x => RegIx.wf x
  | .sknp x => RegIx.wf x
  | .ldFromDt x => RegIx.wf x
  | .ldKey x => RegIx.wf x
  | .ldToDt x => RegIx.wf x
  | .ldToSt x => RegIx.wf x
  | .addI x => RegIx.wf x
  | .ldFont x => RegIx.wf x
  | .ldBcd x => RegIx.wf x
  | .storeRegs x => RegIx.wf x
  | .loadRegs x => RegIx.wf x

/-- A legal choice of the open launch parameters: the stack region lies below the font, and the depth is one of the
values an argument may take (R6; D6, D7: 1 to 128). -/
def Params.wf (p : Params) : Bool :=
  decide (1 ≤ p.stackDepth) && decide (p.stackDepth ≤ 128) &&
    decide (p.stackBase + 2 * p.stackDepth ≤ Config.fontBase)

/-- A program image the load port accepts (R48, R196). -/
def programWf (bytes : List Byte) : Bool := decide (bytes.length ≤ Config.progMax)

end Sys2Proof
end

