-- ==== Sys2Proof/Safety.lean ====
section
/-! DEFINITION. What a run is and what counts as a safe one (10_state.md R22, 70_reset_and_hazards.md R201), the
invariant of the machine, and the words in which claims say what a step leaves unchanged. -/

namespace Sys2Proof.Machine

/-! The run state (R22) -/

def State.running (s : State) : Prop := s.terminated = false ∧ s.err = 0
def State.halted (s : State) : Prop := s.terminated = true ∧ s.err = 0
def State.faulted (s : State) : Prop := s.err ≠ 0

/-- A run is over when no step is enabled (R201). -/
def State.over (s : State) : Prop := s.halted ∨ s.faulted

/-- A run has ended well (R201). -/
def State.endedWell (s : State) : Prop := s.terminated = true ∧ s.err = 0

/-- The address of the next fetch is one a fetch can read (R12, R46). -/
def State.fetchable (s : State) : Prop := s.pc.getLsbD 0 = false ∧ s.pc.toNat + 2 ≤ Config.ramSize

/-- `pc` is the address of a `JP` whose target is that same address (R201). -/
def State.atSelfJump (s : State) : Prop :=
  s.fetchable ∧ ∃ nnn : Addr12, decode (s.ram.readWord s.pc.toNat) = .ok (.jp nnn) ∧ zext16 nnn = s.pc

/-- What holds in every state a launch can reach. -/
structure State.Inv (s : State) : Prop where
  /-- the launch parameters are legal (R6) -/
  params_wf : s.params.wf = true
  /-- RAM is in canonical form: 4096 bytes, one cell list for each content -/
  ram_wf : s.ram.wf = true
  /-- VRAM is in canonical form: 256 bytes -/
  vram_wf : s.vram.wf = true
  /-- the stack pointer stays within the stack region (R17) -/
  sp_le : s.sp.toNat ≤ s.params.stackDepth
  /-- code 7 is never produced (R160) -/
  code_le : s.err.toNat ≤ 6
  /-- `ERR_INFO` is 0 without a fault and for the kinds that have no datum (R160) -/
  info_zero : s.err = 0 ∨ s.err = ErrorKind.loadTooLarge.code ∨ s.err = ErrorKind.stackOverflow.code ∨
    s.err = ErrorKind.stackUnderflow.code → s.errInfo = 0
  /-- `Terminated = 1` and `ERR ≠ 0` cannot arise together (R22) -/
  one_end : s.terminated = true → s.err = 0
  /-- a terminated machine stands on its self-jump (R201) -/
  self_jump : s.terminated = true → s.atSelfJump

/-! What stays the same -/

/-- Every general register but those listed. -/
def sameRegsBut (xs : List RegIx) (s t : State) : Prop := ∀ r : RegIx, r ∉ xs → t.getV r = s.getV r

/-- Every byte of RAM, through the read of one byte. -/
def sameRam (s t : State) : Prop := ∀ a : Nat, t.ram.read a = s.ram.read a

/-- Every byte of RAM outside the `n` bytes from `addr` on. -/
def sameRamBut (addr n : Nat) (s t : State) : Prop :=
  ∀ a : Nat, ¬ (addr ≤ a ∧ a < addr + n) → t.ram.read a = s.ram.read a

/-- `DT` and `ST`. -/
def sameTimers (s t : State) : Prop := t.dt = s.dt ∧ t.st = s.st

/-- VRAM and `Dirty`. -/
def sameDisplay (s t : State) : Prop := t.vram = s.vram ∧ t.dirty = s.dirty

/-- `Terminated`, `ERR`, `ERR_INFO`. -/
def sameStatus (s t : State) : Prop := t.terminated = s.terminated ∧ t.err = s.err ∧ t.errInfo = s.errInfo

/-- The launch parameters, and the counter of drawn bytes. -/
def sameModel (s t : State) : Prop := t.params = s.params ∧ t.draws = s.draws

/-- Everything but `pc` and the registers listed. -/
def sameButRegs (xs : List RegIx) (s t : State) : Prop :=
  sameRegsBut xs s t ∧ t.i = s.i ∧ sameTimers s t ∧ t.sp = s.sp ∧ sameRam s t ∧ sameDisplay s t ∧ sameStatus s t ∧
    sameModel s t

/-- Everything but `pc` and `I`. -/
def sameButIndex (s t : State) : Prop :=
  sameRegsBut [] s t ∧ sameTimers s t ∧ t.sp = s.sp ∧ sameRam s t ∧ sameDisplay s t ∧ sameStatus s t ∧ sameModel s t

/-- Everything but `pc` and the `n` bytes of RAM from `addr` on. -/
def sameButRam (addr n : Nat) (s t : State) : Prop :=
  sameRegsBut [] s t ∧ t.i = s.i ∧ sameTimers s t ∧ t.sp = s.sp ∧ sameRamBut addr n s t ∧ sameDisplay s t ∧
    sameStatus s t ∧ sameModel s t

/-- A fault has been taken and nothing else has happened (R165). -/
def faultTaken (k : ErrorKind) (info : Word) (s t : State) : Prop := t = { s with err := k.code, errInfo := info }

end Sys2Proof.Machine
end

