-- ==== Sys2Proof/Certificates/Slice0/Obligations.lean ====
section
/-! DEFINITION. The statements about the model, from the numbered rules of spec/. Each docstring names the rule. -/

namespace Sys2Proof.Machine

/-! Words the statements use -/

/-- The opcode map in prose (30_encoding.md R68), written as R68 writes it, by top nibble, and not from the table. -/
def mapByTopNibble (w : Word) : Except Reject Instr :=
  let x := nibB w
  let y := nibC w
  let kk := fieldKK w
  let nnn := fieldNNN w
  match (nibA w).toNat with
  | 0x0 => if w = 0x00E0 then .ok .cls else if w = 0x00EE then .ok .ret else .error (.noMatch w)
  | 0x1 => .ok (.jp nnn)
  | 0x2 => .ok (.call nnn)
  | 0x3 => .ok (.seImm x kk)
  | 0x4 => .ok (.sneImm x kk)
  | 0x5 => if nibD w = 0x0 then .ok (.seReg x y) else .error (.noMatch w)
  | 0x6 => .ok (.ldImm x kk)
  | 0x7 => .ok (.addImm x kk)
  | 0x8 =>
    match (nibD w).toNat with
    | 0x0 => .ok (.ldReg x y)
    | 0x1 => .ok (.orReg x y)
    | 0x2 => .ok (.andReg x y)
    | 0x3 => .ok (.xorReg x y)
    | 0x4 => .ok (.addReg x y)
    | 0x5 => .ok (.subReg x y)
    | 0x6 => .ok (.shr x y)
    | 0x7 => .ok (.subnReg x y)
    | 0xE => .ok (.shl x y)
    | _ => .error (.noMatch w)
  | 0x9 => if nibD w = 0x0 then .ok (.sneReg x y) else .error (.noMatch w)
  | 0xA => .ok (.ldI nnn)
  | 0xB => .ok (.jpV0 nnn)
  | 0xC => .ok (.rnd x kk)
  | 0xD => .ok (.drw x y (nibD w))
  | 0xE => if kk = 0x9E then .ok (.skp x) else if kk = 0xA1 then .ok (.sknp x) else .error (.noMatch w)
  | _ =>
    match kk.toNat with
    | 0x07 => .ok (.ldFromDt x)
    | 0x0A => .ok (.ldKey x)
    | 0x15 => .ok (.ldToDt x)
    | 0x18 => .ok (.ldToSt x)
    | 0x1E => .ok (.addI x)
    | 0x29 => .ok (.ldFont x)
    | 0x33 => .ok (.ldBcd x)
    | 0x55 => .ok (.storeRegs x)
    | 0x65 => .ok (.loadRegs x)
    | _ => .error (.noMatch w)

/-- The value of `pc` after an instruction that does not fault (40_control_flow.md R82). -/
def pcAfter (s : State) : Instr → Word
  | .jp nnn => zext16 nnn
  | .jpV0 nnn => zext16 nnn + zext16 (s.getV 0)
  | .call nnn => zext16 nnn
  | .ret => s.ram.readWord (stackAddr s (s.sp.toNat - 1))
  | .seImm x kk => if s.getV x = kk then s.pc + 4 else s.pc + 2
  | .sneImm x kk => if s.getV x ≠ kk then s.pc + 4 else s.pc + 2
  | .seReg x y => if s.getV x = s.getV y then s.pc + 4 else s.pc + 2
  | .sneReg x y => if s.getV x ≠ s.getV y then s.pc + 4 else s.pc + 2
  | _ => s.pc + 2

/-- The six instructions that write `V[15]` as a side effect (10_state.md R11). -/
def writesFlag : Instr → Bool
  | .addReg _ _ => true
  | .subReg _ _ => true
  | .shr _ _ => true
  | .subnReg _ _ => true
  | .shl _ _ => true
  | .drw _ _ _ => true
  | _ => false

/-- The register the `x` field names, of the instructions that have one (R62). -/
def fieldXOf : Instr → Option RegIx
  | .cls => none
  | .ret => none
  | .jp _ => none
  | .call _ => none
  | .ldI _ => none
  | .jpV0 _ => none
  | .seImm x _ => some x
  | .sneImm x _ => some x
  | .ldImm x _ => some x
  | .addImm x _ => some x
  | .rnd x _ => some x
  | .seReg x _ => some x
  | .sneReg x _ => some x
  | .ldReg x _ => some x
  | .orReg x _ => some x
  | .andReg x _ => some x
  | .xorReg x _ => some x
  | .addReg x _ => some x
  | .subReg x _ => some x
  | .shr x _ => some x
  | .subnReg x _ => some x
  | .shl x _ => some x
  | .drw x _ _ => some x
  | .skp x => some x
  | .sknp x => some x
  | .ldFromDt x => some x
  | .ldKey x => some x
  | .ldToDt x => some x
  | .ldToSt x => some x
  | .addI x => some x
  | .ldFont x => some x
  | .ldBcd x => some x
  | .storeRegs x => some x
  | .loadRegs x => some x

/-- The column a sprite is drawn from (44_display.md R141, R142), written from the rule. -/
def spriteColumn (vx : Byte) : Nat := if 57 ≤ vx.toNat then 0 else vx.toNat

/-- Whether the placed sprite mask of `DRW Vx, Vy, n` in state `s` has a lit pixel at column `cx`, row `cy`
(R141, R144): some row `r` of the sprite lands on `cy` and its bit for `cx` is 1. -/
def spriteCovers (x y : RegIx) (n : Nibble) (s : State) (cx cy : Nat) : Prop :=
  ∃ r c : Nat, r < n.toNat ∧ c < 8 ∧ cx = spriteColumn (s.getV x) + c ∧ cy = ((s.getV y).toNat + r) % 32 ∧
    (s.ram.read (s.i.toNat + r)).getLsbD (7 - c) = true

/-- The launch sequence (70_reset_and_hazards.md R193): Reset, then Load. -/
def launched (params : Params) (ramInit : List Host.Cell) (draws : Nat) (bytes : List Byte) : State :=
  (launch params ramInit draws).load bytes

/-- What holds of a session at every moment: the machine's invariant, and an open load port on a machine that runs. -/
def Session.Inv (h : Session) : Prop := h.machine.Inv ∧ (h.mayLoad = true → h.machine.running)

end Sys2Proof.Machine

open Sys2Proof Sys2Proof.Machine

/-! ## Encoding -/

/-- The decoder undoes the encoder, for every instruction and every operand, on the bytes as RAM holds them
(R60, R63, R66). -/
def Obligations.DecodeOfEncodeIsTheInstruction : Prop :=
  ∀ (i : Instr) (rest : List Byte), decode (encode i) = .ok i ∧
    decodeBytes (encodeBytes i ++ rest) = .ok (i, rest)

/-- The encoder undoes the decoder: no bit of a legal word is dropped (R63, R64, R70). -/
def Obligations.EncodeOfDecodeIsTheWord : Prop :=
  ∀ (w : Word) (i : Instr), decode w = .ok i → encode i = w

/-- R65: an entry matches exactly when `(op & mask) == match`, the decoder answers the first that does, and where none
does a step raises `DecodeError(op)`. That positions under a wider immediate are not compared is the spec's decision
D4. -/
def Obligations.MaskAndMatchAgreeWithTheNibblePattern : Prop :=
  (∀ r ∈ definitionTable, ∀ w : Word, r.admits w = true ↔ w &&& r.mask = r.bits) ∧
  (∀ w : Word, decode w =
    match definitionTable.find? (fun r => w &&& r.mask == r.bits) with
    | some r => .ok (r.build w)
    | none => .error (.noMatch w)) ∧
  (∀ s : State, s.running → s.fetchable →
    definitionTable.find? (fun r => s.ram.readWord s.pc.toNat &&& r.mask == r.bits) = none →
    ∃ t, step s = .next t ∧ faultTaken .decodeError (s.ram.readWord s.pc.toNat) s t)

/-- The 34 entries are pairwise disjoint, and the scan order is not observable: R67, the spec's own derivation from
its table. -/
def Obligations.NoWordMatchesTwoEntries : Prop :=
  definitionTable.length = 34 ∧
  definitionTable.Pairwise (fun r r' => ∀ w : Word, ¬ (r.admits w = true ∧ r'.admits w = true)) ∧
  ∀ (T : List Row), T.Perm definitionTable → ∀ w : Word,
    (T.find? (fun r => r.admits w)).map (fun r => r.build w) =
      (definitionTable.find? (fun r => r.admits w)).map (fun r => r.build w)

/-- R68: the decoder is the opcode map in prose, by top nibble; every other word is illegal. -/
def Obligations.DecoderIsTheOpcodeMapByTopNibble : Prop :=
  ∀ w : Word, decode w = mapByTopNibble w

/-- Words written out from the spec's encodings decode to the instructions they stand for, and illegal words are
rejected (95_test_vectors.md D1, D2). -/
def Obligations.WordsOfTheSpecDecode : Prop :=
  decode 0b0000000011100000 = .ok .cls ∧ decode 0b0010101010111100 = .ok (.call 0xABC) ∧
  decode 0b0101101010110000 = .ok (.seReg 0xA 0xB) ∧ decode 0b1000101010110111 = .ok (.subnReg 0xA 0xB) ∧
  decode 0b1101101010110101 = .ok (.drw 0xA 0xB 5) ∧ decode 0b1111101001100101 = .ok (.loadRegs 0xA) ∧
  decode 0x0000 = .error (.noMatch 0x0000) ∧ decode 0x5001 = .error (.noMatch 0x5001) ∧
  decode 0x8AB8 = .error (.noMatch 0x8AB8) ∧ decode 0xEAA0 = .error (.noMatch 0xEAA0)

/-! ## The step and faults -/

/-- A step runs the decoded instruction: `step` adds nothing around `exec` (R80). -/
def Obligations.StepRunsTheDecodedInstruction : Prop :=
  ∀ (s : State) (i : Instr), s.running → s.fetchable → decode (s.ram.readWord s.pc.toNat) = .ok i →
    step s = exec i s

/-- R46, R161, R166, R168: the fetch and decode faults, in order, each taken with its datum and nothing else changed;
the instruction's own fault comes last. The fault of an odd `pc`, the end of RAM and the order are the spec's decisions
D12, D13 and D11. -/
def Obligations.StepFaultsInOrder : Prop :=
  ∀ s : State, s.running →
    (s.pc.getLsbD 0 = true → ∃ t, step s = .next t ∧ faultTaken .fetchMisaligned s.pc s t) ∧
    (s.pc.getLsbD 0 = false → 0x1000 ≤ s.pc.toNat → ∃ t, step s = .next t ∧ faultTaken .memoryBounds s.pc s t) ∧
    (s.pc.getLsbD 0 = false → s.pc.toNat < 0x1000 →
      ∀ op : Word, op = s.ram.read s.pc.toNat ++ s.ram.read (s.pc.toNat + 1) →
        (∀ e, decode op = .error e → ∃ t, step s = .next t ∧ faultTaken .decodeError op s t) ∧
        (∀ i, decode op = .ok i → step s = exec i s))

/-- No step is enabled once the machine is Terminated or Faulted (R80, R197 (c); the spec's decision D16); the two names
of the stop are the model's (log 1). -/
def Obligations.NoStepOnceTheRunIsOver : Prop :=
  ∀ s : State, (s.halted → step s = .fault .terminated) ∧ (s.faulted → step s = .fault .faulted)

/-- R181: every instruction completes, and every enabled step completes, with a successor state or a fault taken. -/
def Obligations.EveryEnabledStepCompletes : Prop :=
  (∀ (i : Instr) (s : State), ∃ t, exec i s = .next t) ∧ (∀ s : State, s.running → ∃ t, step s = .next t)

/-- The three results of `Step` as the host sees it (R197; the spec's decision D16). -/
def Obligations.HostStepHasThreeResults : Prop :=
  ∀ (s : State) (r : StepReport) (t : State), hostStep s = (r, t) →
    (r = .notEnabled ↔ ¬ s.running) ∧ (r = .notEnabled → t = s) ∧
    (r = .stepped → step s = .next t ∧ (t.running ∨ t.halted)) ∧
    (r = .fault → t.faulted ∧ t = { s with err := t.err, errInfo := t.errInfo })

/-- R165: a faulting step changes `ERR` and `ERR_INFO` only; a faulted machine takes no step, and no move of the host
but Reset changes `ERR` or `ERR_INFO`. Precise and sticky faults are the spec's decision D10. -/
def Obligations.FaultsArePreciseAndSticky : Prop :=
  (∀ (k : ErrorKind) (info : Word) (s : State), (s.raise k info).err = k.code ∧ (s.raise k info).errInfo = info ∧
    s.raise k info = { s with err := k.code, errInfo := info }) ∧
  (∀ s t : State, step s = .next t → t.faulted → t = { s with err := t.err, errInfo := t.errInfo }) ∧
  (∀ (a : Action) (h h' : Session), h.Inv → h.machine.faulted → (∀ ramInit, a ≠ .reset ramInit) →
    perform a h = .next h' → h'.machine.err = h.machine.err ∧ h'.machine.errInfo = h.machine.errInfo)

/-- R171: which instruction can raise what: nothing but these, and each of these somewhere, whatever its operands. -/
def Obligations.OnlySixInstructionsFault : Prop :=
  (∀ (i : Instr) (s t : State), s.err = 0 → exec i s = .next t → t.err ≠ 0 →
    ((∃ nnn, i = .call nnn) ∧ faultTaken .stackOverflow 0 s t) ∨
    (i = .ret ∧ faultTaken .stackUnderflow 0 s t) ∨
    (((∃ x y n, i = .drw x y n) ∨ (∃ x, i = .ldBcd x) ∨ (∃ x, i = .storeRegs x) ∨ (∃ x, i = .loadRegs x)) ∧
      faultTaken .memoryBounds s.i s t)) ∧
  (∀ nnn : Addr12, ∃ s t, s.err = 0 ∧ exec (.call nnn) s = .next t ∧ faultTaken .stackOverflow 0 s t) ∧
  (∃ s t, s.err = 0 ∧ exec .ret s = .next t ∧ faultTaken .stackUnderflow 0 s t) ∧
  (∀ (x y : RegIx) (n : Nibble), ∃ s t, s.err = 0 ∧ exec (.drw x y n) s = .next t ∧ faultTaken .memoryBounds s.i s t) ∧
  (∀ x : RegIx,
    (∃ s t, s.err = 0 ∧ exec (.ldBcd x) s = .next t ∧ faultTaken .memoryBounds s.i s t) ∧
    (∃ s t, s.err = 0 ∧ exec (.storeRegs x) s = .next t ∧ faultTaken .memoryBounds s.i s t) ∧
    (∃ s t, s.err = 0 ∧ exec (.loadRegs x) s = .next t ∧ faultTaken .memoryBounds s.i s t))

/-- R162: where `MemoryBoundsError` is raised, site by site, each condition on unbounded integers, and that CALL and RET
cannot raise it. The bounds are the spec's decisions D13, D25 and D26. -/
def Obligations.MemoryBoundsErrorSites : Prop :=
  (∀ s t : State, s.running → s.pc.getLsbD 0 = false → step s = .next t →
    (0x1000 ≤ s.pc.toNat → faultTaken .memoryBounds s.pc s t)) ∧
  (∀ (x y : RegIx) (n : Nibble) (s t : State), s.err = 0 → exec (.drw x y n) s = .next t →
    (t.err ≠ 0 ↔ 0x1000 ≤ s.i.toNat + n.toNat) ∧ (t.err ≠ 0 → faultTaken .memoryBounds s.i s t)) ∧
  (∀ (x : RegIx) (s t : State), s.err = 0 → exec (.ldBcd x) s = .next t →
    (t.err ≠ 0 ↔ 0x0FFD < s.i.toNat) ∧ (t.err ≠ 0 → faultTaken .memoryBounds s.i s t)) ∧
  (∀ (x : RegIx) (s t : State), s.err = 0 → exec (.storeRegs x) s = .next t →
    (t.err ≠ 0 ↔ 0x0FFF < s.i.toNat + x.toNat) ∧ (t.err ≠ 0 → faultTaken .memoryBounds s.i s t)) ∧
  (∀ (x : RegIx) (s t : State), s.err = 0 → exec (.loadRegs x) s = .next t →
    (t.err ≠ 0 ↔ 0x0FFF < s.i.toNat + x.toNat) ∧ (t.err ≠ 0 → faultTaken .memoryBounds s.i s t)) ∧
  (∀ (i : Instr) (s t : State), s.err = 0 → (i = .ret ∨ ∃ nnn, i = .call nnn) → exec i s = .next t →
    t.err ≠ ErrorKind.memoryBounds.code)

/-! ## Control transfer -/

/-- R83: JP. That no other instruction sets `Terminated` is the spec's decision D15. -/
def Obligations.JumpGoesToItsTargetAndHaltsOnItself : Prop :=
  ∀ (nnn : Addr12) (s : State), decode (0x1#4 ++ nnn) = .ok (.jp nnn) ∧
    (∃ t, exec (.jp nnn) s = .next t ∧ t.pc = zext16 nnn ∧
      t.terminated = (if zext16 nnn = s.pc then true else s.terminated) ∧
      sameRegsBut [] s t ∧ t.i = s.i ∧ sameTimers s t ∧ t.sp = s.sp ∧ sameRam s t ∧ sameDisplay s t ∧
      t.err = s.err ∧ t.errInfo = s.errInfo ∧ sameModel s t) ∧
    (∀ (i : Instr) (t : State), (∀ mmm, i ≠ .jp mmm) → exec i s = .next t → t.terminated = s.terminated)

/-- R84: JP V0. The unmasked sum, and that it never halts, are the spec's decisions D14 and D15. -/
def Obligations.JumpWithOffsetAddsV0 : Prop :=
  ∀ (nnn : Addr12) (s : State), decode (0xB#4 ++ nnn) = .ok (.jpV0 nnn) ∧
    ∃ t, exec (.jpV0 nnn) s = .next t ∧ t.pc.toNat = nnn.toNat + (s.getV 0).toNat ∧ sameButRegs [] s t

/-- R85, R163: CALL. The bytes pushed lie at `stackAddr s SP`, the address the meaning uses. The place, size
and order of an entry and the overflow fault are the spec's decisions D6 to D9 (logs 6, 7). -/
def Obligations.CallPushesTheReturnAddress : Prop :=
  ∀ (nnn : Addr12) (s : State), decode (0x2#4 ++ nnn) = .ok (.call nnn) ∧
    (s.sp.toNat = s.params.stackDepth → ∃ t, exec (.call nnn) s = .next t ∧ faultTaken .stackOverflow 0 s t) ∧
    (s.params.wf = true → s.ram.wf = true → s.sp.toNat < s.params.stackDepth →
      ∃ t, exec (.call nnn) s = .next t ∧ t.pc = zext16 nnn ∧ t.sp.toNat = s.sp.toNat + 1 ∧
        t.ram.read (s.params.stackBase + 2 * s.sp.toNat) = (s.pc + 2).extractLsb' 8 8 ∧
        t.ram.read (s.params.stackBase + 2 * s.sp.toNat + 1) = (s.pc + 2).extractLsb' 0 8 ∧
        sameRamBut (stackAddr s s.sp.toNat) 2 s t ∧ sameRegsBut [] s t ∧ t.i = s.i ∧ sameTimers s t ∧
        sameDisplay s t ∧ sameStatus s t ∧ sameModel s t)

/-- R86, R164: RET. The entry's layout and the underflow fault are the spec's decisions D8 and D9 (log 7). -/
def Obligations.ReturnPopsTheStackInRam : Prop :=
  ∀ s : State, decode 0x00EE = .ok .ret ∧
    (s.sp = 0 → ∃ t, exec .ret s = .next t ∧ faultTaken .stackUnderflow 0 s t) ∧
    (s.sp ≠ 0 → ∃ t, exec .ret s = .next t ∧
      t.pc = s.ram.read (s.params.stackBase + 2 * (s.sp.toNat - 1)) ++
        s.ram.read (s.params.stackBase + 2 * (s.sp.toNat - 1) + 1) ∧
      t.sp.toNat = s.sp.toNat - 1 ∧ sameRam s t ∧ sameRegsBut [] s t ∧ t.i = s.i ∧ sameTimers s t ∧
      sameDisplay s t ∧ sameStatus s t ∧ sameModel s t)

/-- With its stack entry unmodified, a RET at the depth of a CALL goes to the instruction after the CALL
(R86, R49 (c)). -/
def Obligations.ReturnMatchesItsCall : Prop :=
  ∀ (nnn : Addr12) (s t u : State), s.params.wf = true → s.ram.wf = true → s.sp.toNat < s.params.stackDepth →
    exec (.call nnn) s = .next t → u.params = t.params → u.sp = t.sp →
    (∀ a, stackAddr s s.sp.toNat ≤ a → a < stackAddr s s.sp.toNat + 2 → u.ram.read a = t.ram.read a) →
    ∃ w, exec .ret u = .next w ∧ w.pc = s.pc + 2 ∧ w.sp = s.sp ∧ sameRegsBut [] u w ∧ sameRam u w

/-! ## Skips -/

/-- R100 to R104: the four skips; the skipped word is not looked at, whatever RAM holds. That 9xy1 to 9xyF are illegal
is the spec's own derivation (R103). -/
def Obligations.SkipsStepOverTheNextInstruction : Prop :=
  ∀ (x y : RegIx) (kk : Byte) (s : State),
    (decode (0x3#4 ++ x ++ kk) = .ok (.seImm x kk) ∧ decode (0x4#4 ++ x ++ kk) = .ok (.sneImm x kk) ∧
      decode (0x5#4 ++ x ++ y ++ 0x0#4) = .ok (.seReg x y) ∧ decode (0x9#4 ++ x ++ y ++ 0x0#4) = .ok (.sneReg x y)) ∧
    (∀ d : Nibble, d ≠ 0 → decode (0x5#4 ++ x ++ y ++ d) = .error (.noMatch (0x5#4 ++ x ++ y ++ d)) ∧
      decode (0x9#4 ++ x ++ y ++ d) = .error (.noMatch (0x9#4 ++ x ++ y ++ d))) ∧
    (∃ t, exec (.seImm x kk) s = .next t ∧ t.pc = (if s.getV x = kk then s.pc + 4 else s.pc + 2) ∧
      sameButRegs [] s t ∧ ∀ m, exec (.seImm x kk) (s.setRam m) = .next (t.setRam m)) ∧
    (∃ t, exec (.sneImm x kk) s = .next t ∧ t.pc = (if s.getV x = kk then s.pc + 2 else s.pc + 4) ∧
      sameButRegs [] s t ∧ ∀ m, exec (.sneImm x kk) (s.setRam m) = .next (t.setRam m)) ∧
    (∃ t, exec (.seReg x y) s = .next t ∧ t.pc = (if s.getV x = s.getV y then s.pc + 4 else s.pc + 2) ∧
      sameButRegs [] s t ∧ ∀ m, exec (.seReg x y) (s.setRam m) = .next (t.setRam m)) ∧
    (∃ t, exec (.sneReg x y) s = .next t ∧ t.pc = (if s.getV x = s.getV y then s.pc + 2 else s.pc + 4) ∧
      sameButRegs [] s t ∧ ∀ m, exec (.sneReg x y) (s.setRam m) = .next (t.setRam m))

/-! ## Register load, arithmetic, logic, shifts, random -/

/-- R110, R111, R112: loads and the immediate add, which writes no flag (for the add the spec's decision D21). -/
def Obligations.LoadsAndImmediateAdd : Prop :=
  ∀ (x y : RegIx) (kk : Byte) (s : State),
    (decode (0x6#4 ++ x ++ kk) = .ok (.ldImm x kk) ∧ decode (0x7#4 ++ x ++ kk) = .ok (.addImm x kk) ∧
      decode (0x8#4 ++ x ++ y ++ 0x0#4) = .ok (.ldReg x y)) ∧
    (∃ t, exec (.ldImm x kk) s = .next t ∧ t.getV x = kk ∧ t.pc = s.pc + 2 ∧ sameButRegs [x] s t) ∧
    (∃ t, exec (.addImm x kk) s = .next t ∧ (t.getV x).toNat = ((s.getV x).toNat + kk.toNat) % 256 ∧
      t.pc = s.pc + 2 ∧ sameButRegs [x] s t) ∧
    (∃ t, exec (.ldReg x y) s = .next t ∧ t.getV x = s.getV y ∧ t.pc = s.pc + 2 ∧ sameButRegs [x] s t)

/-- R114, R115, R116: the logic instructions, bit by bit; no flag is written. Which of 8xy1, 8xy2, 8xy3 is which, and
that none writes the flag, are the spec's decisions D3 and D21 (logs 10, 11). -/
def Obligations.LogicWorksBitByBit : Prop :=
  ∀ (x y : RegIx) (s : State),
    (decode (0x8#4 ++ x ++ y ++ 0x1#4) = .ok (.orReg x y) ∧ decode (0x8#4 ++ x ++ y ++ 0x2#4) = .ok (.andReg x y) ∧
      decode (0x8#4 ++ x ++ y ++ 0x3#4) = .ok (.xorReg x y)) ∧
    (∃ t, exec (.orReg x y) s = .next t ∧
      (∀ k, (t.getV x).getLsbD k = ((s.getV x).getLsbD k || (s.getV y).getLsbD k)) ∧
      t.pc = s.pc + 2 ∧ sameButRegs [x] s t) ∧
    (∃ t, exec (.andReg x y) s = .next t ∧
      (∀ k, (t.getV x).getLsbD k = ((s.getV x).getLsbD k && (s.getV y).getLsbD k)) ∧
      t.pc = s.pc + 2 ∧ sameButRegs [x] s t) ∧
    (∃ t, exec (.xorReg x y) s = .next t ∧
      (∀ k, (t.getV x).getLsbD k = ((s.getV x).getLsbD k != (s.getV y).getLsbD k)) ∧
      t.pc = s.pc + 2 ∧ sameButRegs [x] s t)

/-- R117: ADD Vx, Vy. With `x = 0xF` the flag is what remains (the spec's decision D19). -/
def Obligations.AddReportsTheCarryOut : Prop :=
  ∀ (x y : RegIx) (s : State), decode (0x8#4 ++ x ++ y ++ 0x4#4) = .ok (.addReg x y) ∧
    ∃ t, exec (.addReg x y) s = .next t ∧
      (x ≠ vf → (t.getV x).toNat = ((s.getV x).toNat + (s.getV y).toNat) % 256) ∧
      t.getV vf = (if (s.getV x).toNat + (s.getV y).toNat > 0xFF then 1 else 0) ∧
      t.pc = s.pc + 2 ∧ sameButRegs [x, vf] s t

/-- R118, R120: SUB and SUBN; the flag is a strict comparison of the operands as they were (the spec's decision D20;
log 11). -/
def Obligations.SubtractionsReportNoBorrow : Prop :=
  ∀ (x y : RegIx) (s : State),
    (decode (0x8#4 ++ x ++ y ++ 0x5#4) = .ok (.subReg x y) ∧ decode (0x8#4 ++ x ++ y ++ 0x7#4) = .ok (.subnReg x y)) ∧
    (∃ t, exec (.subReg x y) s = .next t ∧
      (x ≠ vf → ((t.getV x).toNat : Int) = (((s.getV x).toNat : Int) - ((s.getV y).toNat : Int)) % 256) ∧
      t.getV vf = (if (s.getV x).toNat > (s.getV y).toNat then 1 else 0) ∧
      t.pc = s.pc + 2 ∧ sameButRegs [x, vf] s t) ∧
    (∃ t, exec (.subnReg x y) s = .next t ∧
      (x ≠ vf → ((t.getV x).toNat : Int) = (((s.getV y).toNat : Int) - ((s.getV x).toNat : Int)) % 256) ∧
      t.getV vf = (if (s.getV y).toNat > (s.getV x).toNat then 1 else 0) ∧
      t.pc = s.pc + 2 ∧ sameButRegs [x, vf] s t)

/-- R119, R121: the shifts, of `V[x]` by one; the `y` field makes no difference (the spec's decision D18; log 11). -/
def Obligations.ShiftsReportTheBitShiftedOut : Prop :=
  ∀ (x y : RegIx) (s : State),
    (decode (0x8#4 ++ x ++ y ++ 0x6#4) = .ok (.shr x y) ∧ decode (0x8#4 ++ x ++ y ++ 0xE#4) = .ok (.shl x y)) ∧
    (∀ y' : RegIx, exec (.shr x y) s = exec (.shr x y') s ∧ exec (.shl x y) s = exec (.shl x y') s) ∧
    (∃ t, exec (.shr x y) s = .next t ∧ (x ≠ vf → (t.getV x).toNat = (s.getV x).toNat / 2) ∧
      t.getV vf = BitVec.ofNat 8 ((s.getV x).toNat % 2) ∧ t.pc = s.pc + 2 ∧ sameButRegs [x, vf] s t) ∧
    (∃ t, exec (.shl x y) s = .next t ∧ (x ≠ vf → (t.getV x).toNat = 2 * (s.getV x).toNat % 256) ∧
      t.getV vf = BitVec.ofNat 8 ((s.getV x).toNat / 128) ∧ t.pc = s.pc + 2 ∧ sameButRegs [x, vf] s t)

/-- R122: RND. Some byte is drawn and only its bits under the mask reach `V[x]`; nothing else changes. The draw under no
law is the spec's decision D33; the statement holds for every byte drawn. -/
def Obligations.RandomStaysUnderTheMask : Prop :=
  ∀ (x : RegIx) (kk : Byte) (s : State), decode (0xC#4 ++ x ++ kk) = .ok (.rnd x kk) ∧
    ∃ t, exec (.rnd x kk) s = .next t ∧ (∃ r : Byte, t.getV x = r &&& kk) ∧ t.getV x &&& ~~~kk = 0 ∧
      (kk = 0 → t.getV x = 0) ∧ t.pc = s.pc + 2 ∧ sameRegsBut [x] s t ∧ t.i = s.i ∧ sameTimers s t ∧
      t.sp = s.sp ∧ sameRam s t ∧ sameDisplay s t ∧ sameStatus s t ∧ t.params = s.params

/-- Each RND takes the next free value and no other instruction takes one: the model's form of a fresh draw (log 3,
for R122 and R213). It holds for every value of the counter. -/
def Obligations.EachRandomTakesTheNextDraw : Prop :=
  (∀ (x : RegIx) (kk : Byte) (s t : State), exec (.rnd x kk) s = .next t →
    t.getV x = Config.draw8 s.draws &&& kk ∧ t.draws = s.draws + 1) ∧
  (∀ (i : Instr) (s t : State), (∀ x kk, i ≠ .rnd x kk) → exec i s = .next t → t.draws = s.draws)

/-! ## Index register and memory -/

/-- R130, R131, R132: the instructions that change `I`. That ADD I writes no flag and that the font address takes the low
nibble only are the spec's decisions D22 and D23 (log 11). -/
def Obligations.IndexLoadsAndAdd : Prop :=
  ∀ (x : RegIx) (nnn : Addr12) (s : State),
    (decode (0xA#4 ++ nnn) = .ok (.ldI nnn) ∧ decode (0xF#4 ++ x ++ 0x1E#8) = .ok (.addI x) ∧
      decode (0xF#4 ++ x ++ 0x29#8) = .ok (.ldFont x)) ∧
    (∃ t, exec (.ldI nnn) s = .next t ∧ t.i.toNat = nnn.toNat ∧ t.pc = s.pc + 2 ∧ sameButIndex s t) ∧
    (∃ t, exec (.addI x) s = .next t ∧ t.i.toNat = (s.i.toNat + (s.getV x).toNat) % 65536 ∧ t.pc = s.pc + 2 ∧
      sameButIndex s t) ∧
    (∃ t, exec (.ldFont x) s = .next t ∧ t.i.toNat = 0x100 + 5 * ((s.getV x).toNat % 16) ∧ t.pc = s.pc + 2 ∧
      sameButIndex s t)

/-- R133: LD B, Vx. The bytes stored lie at `effectiveAddress s 0`, the address the meaning uses. The
bound is the spec's decision D25. -/
def Obligations.BcdStoresThreeDigits : Prop :=
  ∀ (x : RegIx) (s : State), decode (0xF#4 ++ x ++ 0x33#8) = .ok (.ldBcd x) ∧
    (0x1000 < s.i.toNat + 3 → ∃ t, exec (.ldBcd x) s = .next t ∧ faultTaken .memoryBounds s.i s t) ∧
    (s.ram.wf = true → s.i.toNat + 3 ≤ 0x1000 → ∃ t, exec (.ldBcd x) s = .next t ∧
      (t.ram.read s.i.toNat).toNat = (s.getV x).toNat / 100 ∧
      (t.ram.read (s.i.toNat + 1)).toNat = (s.getV x).toNat / 10 % 10 ∧
      (t.ram.read (s.i.toNat + 2)).toNat = (s.getV x).toNat % 10 ∧
      t.pc = s.pc + 2 ∧ sameButRam (effectiveAddress s 0) 3 s t)

/-- R134: LD [I], Vx. That `I` stays and the bound are the spec's decisions D24 and D25 (log 11). -/
def Obligations.BlockStoreCopiesRegistersToRam : Prop :=
  ∀ (x : RegIx) (s : State), decode (0xF#4 ++ x ++ 0x55#8) = .ok (.storeRegs x) ∧
    (0x1000 < s.i.toNat + x.toNat + 1 →
      ∃ t, exec (.storeRegs x) s = .next t ∧ faultTaken .memoryBounds s.i s t) ∧
    (s.ram.wf = true → s.i.toNat + x.toNat + 1 ≤ 0x1000 → ∃ t, exec (.storeRegs x) s = .next t ∧
      (∀ r : RegIx, r.toNat ≤ x.toNat → t.ram.read (s.i.toNat + r.toNat) = s.getV r) ∧
      t.pc = s.pc + 2 ∧ sameButRam (effectiveAddress s 0) (x.toNat + 1) s t)

/-- R135: LD Vx, [I]. Registers above `x` keep their values. That `I` stays and the bound are the spec's decisions D24
and D25 (log 11). -/
def Obligations.BlockLoadCopiesRamToRegisters : Prop :=
  ∀ (x : RegIx) (s : State), decode (0xF#4 ++ x ++ 0x65#8) = .ok (.loadRegs x) ∧
    (0x1000 < s.i.toNat + x.toNat + 1 →
      ∃ t, exec (.loadRegs x) s = .next t ∧ faultTaken .memoryBounds s.i s t) ∧
    (s.i.toNat + x.toNat + 1 ≤ 0x1000 → ∃ t, exec (.loadRegs x) s = .next t ∧
      (∀ r : RegIx, r.toNat ≤ x.toNat → t.getV r = s.ram.read (s.i.toNat + r.toNat)) ∧
      (∀ r : RegIx, x.toNat < r.toNat → t.getV r = s.getV r) ∧
      t.pc = s.pc + 2 ∧ t.i = s.i ∧ sameTimers s t ∧ t.sp = s.sp ∧ sameRam s t ∧ sameDisplay s t ∧
      sameStatus s t ∧ sameModel s t)

/-- The round trip of the block transfers: storing registers 0 to x and loading them from the same address restores
them, whatever happened to the registers between (R134, R135; 95_test_vectors.md S11). -/
def Obligations.BlockTransfersRoundTrip : Prop :=
  ∀ (x : RegIx) (s t u : State), s.ram.wf = true → s.i.toNat + x.toNat + 1 ≤ 0x1000 →
    exec (.storeRegs x) s = .next t → u.ram = t.ram → u.i = t.i →
    ∃ w, exec (.loadRegs x) u = .next w ∧ (∀ r : RegIx, r.toNat ≤ x.toNat → w.getV r = s.getV r) ∧
      (∀ r : RegIx, x.toNat < r.toNat → w.getV r = u.getV r)

/-- A store is seen by the very next fetch: bytes stored over the next instruction are the word the next step decodes
(R54; 95_test_vectors.md P8). -/
def Obligations.StoredWordIsFetchedNext : Prop :=
  ∀ (x : RegIx) (s t : State), s.ram.wf = true → s.running → s.fetchable →
    decode (s.ram.readWord s.pc.toNat) = .ok (.storeRegs x) → 1 ≤ x.toNat → s.i = s.pc + 2 →
    s.i.toNat + x.toNat + 1 ≤ 0x1000 → step s = .next t →
    t.fetchable ∧ ∀ i, decode (s.getV 0 ++ s.getV 1) = .ok i → step t = exec i t

/-! ## Display -/

/-- R140: CLS. That it sets `Dirty` is the spec's decision D29. -/
def Obligations.ClearBlanksTheDisplay : Prop :=
  ∀ s : State, decode 0x00E0 = .ok .cls ∧
    ∃ t, exec .cls s = .next t ∧ (∀ k, t.vram.read k = 0) ∧ t.dirty = true ∧ t.pc = s.pc + 2 ∧
      sameRegsBut [] s t ∧ t.i = s.i ∧ sameTimers s t ∧ t.sp = s.sp ∧ sameRam s t ∧ sameStatus s t ∧ sameModel s t

/-- R141, R142: DRW pixel by pixel: a pixel is toggled exactly when the placed sprite covers it (rows wrap, columns snap
as a whole), `V[15]` says whether a covered pixel was lit, and the literal bound is checked first. The bound, the width of
the snap's sum and the old `V[15]` as a coordinate are the spec's decisions D26, D28 and D39 (log 11). -/
def Obligations.DrawTogglesTheCoveredPixels : Prop :=
  ∀ (x y : RegIx) (n : Nibble) (s : State), decode (0xD#4 ++ x ++ y ++ n) = .ok (.drw x y n) ∧
    (0x1000 ≤ s.i.toNat + n.toNat → ∃ t, exec (.drw x y n) s = .next t ∧ faultTaken .memoryBounds s.i s t) ∧
    (s.vram.wf = true → s.i.toNat + n.toNat < 0x1000 → ∃ t, exec (.drw x y n) s = .next t ∧
      (∀ cx cy : Nat, cx < 64 → cy < 32 →
        (spriteCovers x y n s cx cy → t.vram.pixel cx cy = !s.vram.pixel cx cy) ∧
        (¬ spriteCovers x y n s cx cy → t.vram.pixel cx cy = s.vram.pixel cx cy)) ∧
      ((∃ cx cy : Nat, cx < 64 ∧ cy < 32 ∧ spriteCovers x y n s cx cy ∧ s.vram.pixel cx cy = true) →
        t.getV vf = 1) ∧
      ((∀ cx cy : Nat, cx < 64 → cy < 32 → spriteCovers x y n s cx cy → s.vram.pixel cx cy = false) →
        t.getV vf = 0) ∧
      t.dirty = true ∧ t.pc = s.pc + 2 ∧ sameRegsBut [vf] s t ∧ t.i = s.i ∧ sameTimers s t ∧ t.sp = s.sp ∧
      sameRam s t ∧ sameStatus s t ∧ sameModel s t)

/-- R143: `Dxy0`; the spec's decision D27. -/
def Obligations.DrawWithoutRowsOnlyClearsTheFlag : Prop :=
  ∀ (x y : RegIx) (s : State),
    (s.i.toNat < 0x1000 → ∃ t, exec (.drw x y 0) s = .next t ∧ t.vram = s.vram ∧ t.getV vf = 0 ∧ t.dirty = true ∧
      t.pc = s.pc + 2 ∧ sameRegsBut [vf] s t ∧ sameRam s t) ∧
    (0x1000 ≤ s.i.toNat → ∃ t, exec (.drw x y 0) s = .next t ∧ faultTaken .memoryBounds s.i s t)

/-- The byte-block realisation and the per-pixel loop leave the same framebuffer and the same collision, for every
sprite at every origin a draw can use (R144). -/
def Obligations.BlockRealisationEqualsPixelLoop : Prop :=
  ∀ (bs : List Byte) (x0 y : Nat) (cv : Canvas), cv.vram.wf = true → x0 ≤ 56 →
    drawRowsBlock bs x0 y cv = drawRows bs x0 y cv

/-- Drawing the same sprite twice restores VRAM, and the second draw reports a collision exactly when the first lit a
pixel (R144 (c)). -/
def Obligations.DrawingTwiceRestoresTheDisplay : Prop :=
  ∀ (x y : RegIx) (n : Nibble) (s t u w : State), s.vram.wf = true → s.i.toNat + n.toNat < 0x1000 →
    exec (.drw x y n) s = .next t → u.vram = t.vram → u.i = s.i → u.getV x = s.getV x → u.getV y = s.getV y →
    sameRam s u → exec (.drw x y n) u = .next w →
    w.vram = s.vram ∧
    ((∃ cx cy : Nat, cx < 64 ∧ cy < 32 ∧ spriteCovers x y n s cx cy ∧ s.vram.pixel cx cy = false) →
      w.getV vf = 1) ∧
    ((∀ cx cy : Nat, cx < 64 → cy < 32 → spriteCovers x y n s cx cy → s.vram.pixel cx cy = true) →
      w.getV vf = 0)

/-- R28: writing a pixel writes bit `7 - (cx mod 8)` of byte `8*cy + cx div 8` and no other bit of VRAM. -/
def Obligations.PixelIsOneBitOfItsByte : Prop :=
  ∀ (f : Framebuffer) (cx cy : Nat) (b : Bool), f.wf = true → cx < 64 → cy < 32 →
    f.pixel cx cy = (f.read (8 * cy + cx / 8)).getLsbD (7 - cx % 8) ∧
    ((f.setPixel cx cy b).read (8 * cy + cx / 8)).getLsbD (7 - cx % 8) = b ∧
    ∀ k j : Nat, j < 8 → ¬ (k = 8 * cy + cx / 8 ∧ j = 7 - cx % 8) →
      ((f.setPixel cx cy b).read k).getLsbD j = (f.read k).getLsbD j

/-! ## Keys and timers -/

/-- R150, R151, R152: the key stubs, which the spec keeps as stubs (D31; for SKNP conflict C4). -/
def Obligations.KeyInstructionsAreStubs : Prop :=
  ∀ (x : RegIx) (s : State),
    (decode (0xE#4 ++ x ++ 0x9E#8) = .ok (.skp x) ∧ decode (0xE#4 ++ x ++ 0xA1#8) = .ok (.sknp x) ∧
      decode (0xF#4 ++ x ++ 0x0A#8) = .ok (.ldKey x)) ∧
    (∃ t, exec (.skp x) s = .next t ∧ t.pc = s.pc + 2 ∧ sameButRegs [] s t) ∧
    (∃ t, exec (.sknp x) s = .next t ∧ t.pc = s.pc + 2 ∧ sameButRegs [] s t) ∧
    (∃ t, exec (.ldKey x) s = .next t ∧ t.getV x = 0 ∧ t.pc = s.pc + 2 ∧ sameButRegs [x] s t)

/-- R153, R154, R155: the timer instructions. -/
def Obligations.TimerInstructionsMoveBytes : Prop :=
  ∀ (x : RegIx) (s : State),
    (decode (0xF#4 ++ x ++ 0x07#8) = .ok (.ldFromDt x) ∧ decode (0xF#4 ++ x ++ 0x15#8) = .ok (.ldToDt x) ∧
      decode (0xF#4 ++ x ++ 0x18#8) = .ok (.ldToSt x)) ∧
    (∃ t, exec (.ldFromDt x) s = .next t ∧ t.getV x = s.dt ∧ t.pc = s.pc + 2 ∧ sameButRegs [x] s t) ∧
    (∃ t, exec (.ldToDt x) s = .next t ∧ t.dt = s.getV x ∧ t.st = s.st ∧ t.pc = s.pc + 2 ∧ sameRegsBut [] s t ∧
      t.i = s.i ∧ t.sp = s.sp ∧ sameRam s t ∧ sameDisplay s t ∧ sameStatus s t ∧ sameModel s t) ∧
    (∃ t, exec (.ldToSt x) s = .next t ∧ t.st = s.getV x ∧ t.dt = s.dt ∧ t.pc = s.pc + 2 ∧ sameRegsBut [] s t ∧
      t.i = s.i ∧ t.sp = s.sp ∧ sameRam s t ∧ sameDisplay s t ∧ sameStatus s t ∧ sameModel s t)

/-! ## Rules over the whole machine -/

/-- R82: `pc` after every instruction, and unchanged by one that faults; from a fetchable address the sequential advance
and the skips cannot wrap (the spec's own derivation from the fetch). -/
def Obligations.PcAfterEveryInstruction : Prop :=
  (∀ (i : Instr) (s t : State), s.err = 0 → exec i s = .next t →
    (t.err ≠ 0 → t.pc = s.pc) ∧ (t.err = 0 → t.pc = pcAfter s i)) ∧
  (∀ s : State, s.fetchable → (s.pc + 2).toNat = s.pc.toNat + 2 ∧ (s.pc + 4).toNat = s.pc.toNat + 4 ∧
    s.pc.toNat + 4 ≤ 0x1002)

/-- R11: `V[15]` is written as a side effect by exactly six instructions, always with 0x00 or 0x01; no other writes it
unless its `x` field is 0xF. -/
def Obligations.OnlySixInstructionsWriteTheFlag : Prop :=
  ∀ (i : Instr) (s t : State), s.err = 0 → exec i s = .next t →
    (writesFlag i = true → t.err = 0 → t.getV vf = 0 ∨ t.getV vf = 1) ∧
    (writesFlag i = false → fieldXOf i ≠ some vf → t.getV vf = s.getV vf)

/-- The write columns of the access matrix (R31): which instructions may change `I`, `DT`, `ST`, `SP`, RAM, VRAM and
`Dirty`; none changes the launch parameters. -/
def Obligations.WriteColumnsOfTheAccessMatrix : Prop :=
  ∀ (i : Instr) (s t : State), exec i s = .next t →
    (t.i ≠ s.i → (∃ nnn, i = .ldI nnn) ∨ (∃ x, i = .addI x) ∨ ∃ x, i = .ldFont x) ∧
    (t.dt ≠ s.dt → ∃ x, i = .ldToDt x) ∧
    (t.st ≠ s.st → ∃ x, i = .ldToSt x) ∧
    (t.sp ≠ s.sp → i = .ret ∨ ∃ nnn, i = .call nnn) ∧
    (t.ram ≠ s.ram → (∃ nnn, i = .call nnn) ∨ (∃ x, i = .ldBcd x) ∨ ∃ x, i = .storeRegs x) ∧
    (t.vram ≠ s.vram → i = .cls ∨ ∃ x y n, i = .drw x y n) ∧
    (t.dirty ≠ s.dirty → (i = .cls ∨ ∃ x y n, i = .drw x y n) ∧ t.dirty = true) ∧
    t.params = s.params

/-- R19: `Terminated` is set by exactly one event, a JP to its own address, and cleared by Reset only (the spec's decision
D15). -/
def Obligations.TerminatedIsSetByASelfJumpOnly : Prop :=
  (∀ s t : State, step s = .next t → (t.terminated = true ↔ s.atSelfJump)) ∧
  (∀ (a : Action) (h h' : Session), h.machine.terminated = true → (∀ ramInit, a ≠ .reset ramInit) →
    perform a h = .next h' → h'.machine.terminated = true)

/-- State only the host sees cannot influence the program: `ST` and `Dirty` (R16, R21, R33, R199). A step from a state
that differs in them ends alike in everything else. -/
def Obligations.SoundTimerAndDirtyDoNotInfluenceTheProgram : Prop :=
  ∀ (s t : State) (b : Byte) (d : Bool), step s = .next t →
    ∃ t', step ((s.setSt b).setDirty d) = .next t' ∧ (t'.setSt t.st).setDirty t.dirty = t

/-! ## Memory as data -/

/-- Equal memories are equal data: a canonical RAM is determined by its bytes, and so is a canonical VRAM (log 13). -/
def Obligations.CanonicalStoresAreDeterminedByTheirBytes : Prop :=
  (∀ m m' : Memory, m.wf = true → m'.wf = true → (∀ a, a < 0x1000 → m.read a = m'.read a) → m = m') ∧
  (∀ f f' : Framebuffer, f.wf = true → f'.wf = true →
    (∀ cx cy : Nat, cx < 64 → cy < 32 → f.pixel cx cy = f'.pixel cx cy) → f = f')

/-! ## Reset, load, host -/

/-- R29: the state after reset and the load that follows it, for every legal or illegal choice of the parameters, every
`RAM_INIT` (a byte for each of the 4096 addresses) and every program that fits. Zero in `I`, `ERR`, `Dirty` and the rest
the source does not name is the spec's decision D34, D10, D30; the font bytes are those of the model (log 5). -/
def Obligations.StateAfterResetAndLoad : Prop :=
  ∀ (params : Params) (init : Nat → Byte) (draws : Nat) (bytes : List Byte) (s : State), bytes.length ≤ 3584 →
    s = launched params ((List.range 0x1000).map (fun a => (a, init a))) draws bytes →
    (∀ x, s.getV x = 0) ∧ s.i = 0 ∧ s.dt = 0 ∧ s.st = 0 ∧ s.pc = 0x0200 ∧ s.sp = 0 ∧ s.terminated = false ∧
    s.err = 0 ∧ s.errInfo = 0 ∧ s.dirty = false ∧ (∀ k, s.vram.read k = 0) ∧
    (∀ k, k < 80 → s.ram.read (0x100 + k) = fontData.getD k 0) ∧
    (∀ k, (h : k < bytes.length) → s.ram.read (0x200 + k) = bytes[k]) ∧
    (∀ a, a < 0x100 ∨ (0x150 ≤ a ∧ a < 0x200) ∨ (0x200 + bytes.length ≤ a ∧ a < 0x1000) → s.ram.read a = init a)

/-- R196, R167: the load port. One load, and the fault of one that fails, are the spec's decision D36; the refusal of a
late one is the model's form (log 8). -/
def Obligations.LoadCopiesTheProgramOrFails : Prop :=
  ∀ (h : Session) (bytes : List Byte),
    (h.mayLoad = false → perform (.load bytes) h = .refused .loadNotEnabled) ∧
    (h.mayLoad = true → 3584 < bytes.length → ∃ h', perform (.load bytes) h = .next h' ∧ h'.mayLoad = false ∧
      faultTaken .loadTooLarge 0 h.machine h'.machine) ∧
    (h.mayLoad = true → bytes.length ≤ 3584 → h.machine.ram.wf = true →
      ∃ h', perform (.load bytes) h = .next h' ∧ h'.mayLoad = false ∧
        (∀ k, (hk : k < bytes.length) → h'.machine.ram.read (0x200 + k) = bytes[k]) ∧
        sameRegsBut [] h.machine h'.machine ∧ h'.machine.pc = h.machine.pc ∧
        sameButRam 0x200 bytes.length h.machine h'.machine)

/-- The first step after Reset and Load runs the instruction in the program's first two bytes, the first the high byte
(R192, R193, R196). -/
def Obligations.FirstStepRunsTheFirstWordOfTheProgram : Prop :=
  ∀ (params : Params) (ramInit : List Host.Cell) (draws : Nat) (hi lo : Byte) (rest : List Byte) (i : Instr),
    rest.length + 2 ≤ 3584 → decode (hi ++ lo) = .ok i →
    step (launched params ramInit draws (hi :: lo :: rest)) = exec i (launched params ramInit draws (hi :: lo :: rest))

/-- R176: TimerTick, saturating, both timers together, in every run state (the spec's decision D32). -/
def Obligations.TimerTickCountsDownToZero : Prop :=
  ∀ h : Session, ∃ h', perform .timerTick h = .next h' ∧ h'.mayLoad = h.mayLoad ∧
    h'.machine.dt.toNat = h.machine.dt.toNat - 1 ∧ h'.machine.st.toNat = h.machine.st.toNat - 1 ∧
    h'.machine.pc = h.machine.pc ∧ sameRegsBut [] h.machine h'.machine ∧ h'.machine.i = h.machine.i ∧
    h'.machine.sp = h.machine.sp ∧ sameRam h.machine h'.machine ∧ sameDisplay h.machine h'.machine ∧
    sameStatus h.machine h'.machine ∧ sameModel h.machine h'.machine

/-- R199: the framebuffer port: `FbRead` gives the 256 bytes in their order and `Dirty`; `DirtyAck` clears `Dirty` and
changes nothing else (the spec's decision D30). -/
def Obligations.FramebufferPort : Prop :=
  ∀ h : Session,
    (h.machine.fbRead.1.length = 256 ∧ h.machine.fbRead.2 = h.machine.dirty ∧
      ∀ k, k < 256 → h.machine.fbRead.1[k]? = some (h.machine.vram.read k)) ∧
    ∃ h', perform .dirtyAck h = .next h' ∧ h'.machine.dirty = false ∧ h' = { h with machine := h'.machine } ∧
      h'.machine = { h.machine with dirty := false }

/-- A run cut off by its budget goes on exactly where it stopped, and a run that is over stays as it is
(R198 (a), (b), (c); the spec's decisions D17 and D40). -/
def Obligations.RunContinuesWhereItsBudgetEnded : Prop :=
  ∀ (m n : Nat) (s t : State) (e : RunEnd), run m s = (e, t) →
    (e = .stepBound ↔ t.running) ∧ (e = .halted ↔ t.halted) ∧
    (∀ code info, e = .fault code info ↔ (t.faulted ∧ code = t.err ∧ info = t.errInfo)) ∧
    run (m + n) s = run n t ∧ (e ≠ .stepBound → run (m + n) s = (e, t))

/-! ## The invariant -/

/-- The reset state has the invariant. -/
def Obligations.ResetHasTheInvariant : Prop := State.reset.Inv

/-- Every step keeps the invariant, from every state that has it. -/
def Obligations.StepKeepsTheInvariant : Prop :=
  ∀ s t : State, s.Inv → step s = .next t → t.Inv

/-- Every launch with legal parameters begins, and every schedule of host moves keeps, a session with the invariant; so
a machine found terminated ended well, on its self-jump (R195, R201). -/
def Obligations.EveryScheduleKeepsTheInvariant : Prop :=
  (∀ (params : Params) (ramInit : List Host.Cell) (draws : Nat), params.wf = true →
    Session.Inv { machine := launch params ramInit draws, mayLoad := true }) ∧
  (∀ (as : List Action) (h h' : Session), h.Inv → performAll as h = .next h' →
    h'.Inv ∧ (h'.machine.terminated = true → h'.machine.endedWell ∧ h'.machine.atSelfJump))
end

