-- ==== Sys2Proof/Laws/Memory.lean ====
section
/-! SUPPORT. The laws of the byte stores: a read after a write, and the canonical form, which every operation keeps. -/

namespace Sys2Proof.Machine

section
variable {dflt : Nat → Byte} {size : Nat}

/-! Read after one write -/

theorem cellsRead_insert (m : Cells) (a a' : Nat) (v : Byte) :
    cellsRead dflt (cellsInsert m a v) a' = if a' = a then v else cellsRead dflt m a' := by
  induction m with
  | nil => simp [cellsInsert, cellsRead]
  | cons c m ih =>
    obtain ⟨b, w⟩ := c
    simp only [cellsInsert]
    split
    · simp [cellsRead]
    · split
      · next h => subst h; by_cases h' : a' = a <;> simp [cellsRead, h']
      · next h => by_cases h' : a' = b <;> simp [cellsRead, ih, h']; omega

theorem cellsWfFrom_mono {lo lo' : Nat} (h : lo' ≤ lo) {m : Cells} (hm : cellsWfFrom dflt size lo m = true) :
    cellsWfFrom dflt size lo' m = true := by
  cases m with
  | nil => rfl
  | cons c m =>
    obtain ⟨b, w⟩ := c
    simp [cellsWfFrom] at hm ⊢
    exact ⟨⟨⟨by omega, hm.1.1.2⟩, hm.1.2⟩, hm.2⟩

/-- Below its first address a canonical store reads as its default. -/
theorem cellsRead_below {lo a : Nat} {m : Cells} (hm : cellsWfFrom dflt size lo m = true) (h : a < lo) :
    cellsRead dflt m a = dflt a := by
  induction m generalizing lo with
  | nil => rfl
  | cons c m ih =>
    obtain ⟨b, w⟩ := c
    simp [cellsWfFrom] at hm
    have : a ≠ b := by omega
    simp [cellsRead, this, ih hm.2 (by omega)]

/-- At and above its size a canonical store reads as its default. -/
theorem cellsRead_above {lo a : Nat} {m : Cells} (hm : cellsWfFrom dflt size lo m = true) (h : size ≤ a) :
    cellsRead dflt m a = dflt a := by
  induction m generalizing lo with
  | nil => rfl
  | cons c m ih =>
    obtain ⟨b, w⟩ := c
    simp [cellsWfFrom] at hm
    have : a ≠ b := by omega
    simp [cellsRead, this, ih hm.2]

theorem cellsRead_erase {lo : Nat} {m : Cells} (hm : cellsWfFrom dflt size lo m = true) (a a' : Nat) :
    cellsRead dflt (cellsErase m a) a' = if a' = a then dflt a else cellsRead dflt m a' := by
  induction m generalizing lo with
  | nil => by_cases h : a' = a <;> simp [cellsErase, cellsRead, h]
  | cons c m ih =>
    obtain ⟨b, w⟩ := c
    have hm' := hm
    simp [cellsWfFrom] at hm'
    simp only [cellsErase]
    split
    · next h =>
      subst h
      by_cases h' : a' = a
      · subst h'; simp [cellsRead_below hm'.2 (Nat.lt_succ_self _)]
      · simp [cellsRead, h']
    · next h => by_cases h' : a' = b <;> simp [cellsRead, ih hm'.2, h']; omega

/-- A read after a write: the written byte inside the store, every other byte as before. -/
theorem cellsRead_write {lo : Nat} {m : Cells} (hm : cellsWfFrom dflt size lo m = true) (a a' : Nat) (v : Byte) :
    cellsRead dflt (cellsWrite dflt size m a v) a' = if a' = a ∧ a < size then v else cellsRead dflt m a' := by
  unfold cellsWrite
  split
  · have : ¬ (a' = a ∧ a < size) := by omega
    simp [this]
  · have hlt : a < size := by omega
    split
    · next h => simp [cellsRead_erase hm, hlt, h]
    · simp [cellsRead_insert, hlt]

/-- What a write leaves alone needs no canonical form. -/
theorem cellsRead_write_ne (m : Cells) {a a' : Nat} (v : Byte) (h : a' ≠ a) :
    cellsRead dflt (cellsWrite dflt size m a v) a' = cellsRead dflt m a' := by
  have he : cellsRead dflt (cellsErase m a) a' = cellsRead dflt m a' := by
    induction m with
    | nil => rfl
    | cons c m ih =>
      obtain ⟨b, w⟩ := c
      simp only [cellsErase]
      split
      · next hb => subst hb; simp [cellsRead, h]
      · by_cases h' : a' = b <;> simp [cellsRead, ih, h']
  unfold cellsWrite
  split
  · rfl
  · split
    · exact he
    · simp [cellsRead_insert, h]

/-! The canonical form -/

theorem cellsWfFrom_insert {lo a : Nat} {v : Byte} {m : Cells} (hm : cellsWfFrom dflt size lo m = true) (hlo : lo ≤ a)
    (ha : a < size) (hv : v ≠ dflt a) : cellsWfFrom dflt size lo (cellsInsert m a v) = true := by
  induction m generalizing lo with
  | nil => simp [cellsInsert, cellsWfFrom, *]
  | cons c m ih =>
    obtain ⟨b, w⟩ := c
    simp [cellsWfFrom] at hm
    simp only [cellsInsert]
    split
    · simp [cellsWfFrom, *]
    · split
      · next h => subst h; simp [cellsWfFrom, *]
      · simp [cellsWfFrom, hm, ih hm.2 (by omega)]

theorem cellsWfFrom_erase {lo : Nat} {m : Cells} (hm : cellsWfFrom dflt size lo m = true) (a : Nat) :
    cellsWfFrom dflt size lo (cellsErase m a) = true := by
  induction m generalizing lo with
  | nil => rfl
  | cons c m ih =>
    obtain ⟨b, w⟩ := c
    have hm' := hm
    simp [cellsWfFrom] at hm'
    simp only [cellsErase]
    split
    · exact cellsWfFrom_mono (by omega) hm'.2
    · simp [cellsWfFrom, hm', ih hm'.2]

/-- A write keeps the canonical form. -/
theorem cellsWf_write {m : Cells} (hm : cellsWfFrom dflt size 0 m = true) (a : Nat) (v : Byte) :
    cellsWfFrom dflt size 0 (cellsWrite dflt size m a v) = true := by
  unfold cellsWrite
  split
  · exact hm
  · split
    · exact cellsWfFrom_erase hm a
    · next h => exact cellsWfFrom_insert hm (Nat.zero_le _) (by omega) h

end

/-! RAM -/

@[simp] theorem Memory.wf_nil : Memory.wf [] = true := rfl

theorem Memory.wf_write {m : Memory} (hm : m.wf = true) (a : Nat) (v : Byte) : (m.write a v).wf = true :=
  cellsWf_write hm a v

theorem Memory.wf_writeBytes {m : Memory} (hm : m.wf = true) (a : Nat) (bs : List Byte) :
    (m.writeBytes a bs).wf = true := by
  induction bs generalizing m a with
  | nil => exact hm
  | cons b bs ih => exact ih (Memory.wf_write hm a b) (a + 1)

theorem Memory.wf_writeWord {m : Memory} (hm : m.wf = true) (a : Nat) (w : Word) : (m.writeWord a w).wf = true :=
  Memory.wf_writeBytes hm a _

theorem Memory.read_write {m : Memory} (hm : m.wf = true) (a a' : Nat) (v : Byte) :
    (m.write a v).read a' = if a' = a ∧ a < Config.ramSize then v else m.read a' :=
  cellsRead_write hm a a' v

theorem Memory.read_write_same {m : Memory} (hm : m.wf = true) {a : Nat} (h : a < Config.ramSize) (v : Byte) :
    (m.write a v).read a = v := by
  simp [Memory.read_write hm, h]

theorem Memory.read_write_ne (m : Memory) {a a' : Nat} (v : Byte) (h : a' ≠ a) :
    (m.write a v).read a' = m.read a' :=
  cellsRead_write_ne m v h

/-- Bytes outside the range written keep their value. -/
theorem Memory.read_writeBytes_out (m : Memory) {a a' : Nat} (bs : List Byte)
    (h : ¬ (a ≤ a' ∧ a' < a + bs.length)) : (m.writeBytes a bs).read a' = m.read a' := by
  induction bs generalizing m a with
  | nil => rfl
  | cons b bs ih =>
    simp only [List.length_cons] at h
    rw [Memory.writeBytes, ih _ (by omega), Memory.read_write_ne _ _ (by omega)]

/-- The `k`-th byte written is the byte read there. -/
theorem Memory.read_writeBytes_in {m : Memory} (hm : m.wf = true) {a : Nat} {bs : List Byte} {k : Nat}
    (hk : k < bs.length) (hr : a + bs.length ≤ Config.ramSize) :
    (m.writeBytes a bs).read (a + k) = bs[k] := by
  induction bs generalizing m a k with
  | nil => simp at hk
  | cons b bs ih =>
    simp only [List.length_cons] at hk hr
    rw [Memory.writeBytes]
    cases k with
    | zero =>
      rw [Memory.read_writeBytes_out _ _ (by omega)]
      simp [Memory.read_write_same hm (a := a) (by omega)]
    | succ k =>
      have := ih (m := m.write a b) (Memory.wf_write hm a b) (a := a + 1) (k := k) (by omega) (by omega)
      simpa [Nat.add_assoc, Nat.add_comm 1 k] using this

@[simp] theorem Memory.length_readBytes (m : Memory) (a n : Nat) : (m.readBytes a n).length = n := by
  induction n generalizing a with
  | zero => rfl
  | succ n ih => simp [Memory.readBytes, ih]

theorem Memory.getElem_readBytes (m : Memory) (a n k : Nat) (h : k < (m.readBytes a n).length) :
    (m.readBytes a n)[k] = m.read (a + k) := by
  induction n generalizing a k with
  | zero => simp at h
  | succ n ih =>
    cases k with
    | zero => simp [Memory.readBytes]
    | succ k =>
      have h' : k < (m.readBytes (a + 1) n).length := by simpa [Memory.readBytes] using h
      simpa [Memory.readBytes, Nat.add_assoc, Nat.add_comm 1 k] using ih (a + 1) k h'

theorem wordOfBytes_split (w : Word) : (w.extractLsb' 8 8 ++ w.extractLsb' 0 8 : Word) = w := by
  apply BitVec.eq_of_getLsbD_eq
  intro k hk
  simp only [BitVec.getLsbD_append, BitVec.getLsbD_extractLsb']
  by_cases h : k < 8
  · simp [h]
  · simp [h, show k - 8 < 8 by omega, show 8 + (k - 8) = k by omega]

/-- A word is read back where it was written (R44, R45). -/
theorem Memory.readWord_writeWord {m : Memory} (hm : m.wf = true) {a : Nat} (h : a + 2 ≤ Config.ramSize) (w : Word) :
    (m.writeWord a w).readWord a = w := by
  have h0 := Memory.read_writeBytes_in hm (a := a) (bs := [w.extractLsb' 8 8, w.extractLsb' 0 8]) (k := 0)
    (by simp) (by simpa using h)
  have h1 := Memory.read_writeBytes_in hm (a := a) (bs := [w.extractLsb' 8 8, w.extractLsb' 0 8]) (k := 1)
    (by simp) (by simpa using h)
  simp only [Nat.add_zero, List.getElem_cons_zero, List.getElem_cons_succ] at h0 h1
  rw [Memory.readWord, Memory.writeWord, h0, h1, wordOfBytes_split]

/-! VRAM -/

@[simp] theorem Framebuffer.wf_nil : Framebuffer.wf [] = true := rfl

@[simp] theorem Framebuffer.read_nil (k : Nat) : Framebuffer.read [] k = 0 := rfl

theorem Framebuffer.wf_write {f : Framebuffer} (hf : f.wf = true) (k : Nat) (v : Byte) : (f.write k v).wf = true :=
  cellsWf_write hf k v

theorem Framebuffer.read_write {f : Framebuffer} (hf : f.wf = true) (k k' : Nat) (v : Byte) :
    (f.write k v).read k' = if k' = k ∧ k < Config.vramSize then v else f.read k' :=
  cellsRead_write hf k k' v

theorem Framebuffer.read_write_ne (f : Framebuffer) {k k' : Nat} (v : Byte) (h : k' ≠ k) :
    (f.write k v).read k' = f.read k' :=
  cellsRead_write_ne f v h

theorem Framebuffer.wf_setPixel {f : Framebuffer} (hf : f.wf = true) (cx cy : Nat) (b : Bool) :
    (f.setPixel cx cy b).wf = true :=
  Framebuffer.wf_write hf _ _

theorem getLsbD_setBit (v : Byte) {k j : Nat} (hk : k < 8) (hj : j < 8) (b : Bool) :
    (setBit v k b).getLsbD j = if j = k then b else v.getLsbD j := by
  unfold setBit
  cases b <;> by_cases h : j = k
  · subst h; simp [hj]
  · simp only [Bool.false_eq_true, if_false, BitVec.getLsbD_and, BitVec.getLsbD_not, BitVec.getLsbD_shiftLeft, hj, h]
    by_cases h2 : j < k
    · simp [h2]
    · have : j - k ≠ 0 := by omega
      simp [this]
  · subst h; simp [hj]
  · simp only [if_true, BitVec.getLsbD_or, BitVec.getLsbD_shiftLeft, hj, h]
    by_cases h2 : j < k
    · simp [h2]
    · have : j - k ≠ 0 := by omega
      simp [this]

end Sys2Proof.Machine
end

