-- ==== Sys2Proof/Laws/Display.lean ====
section
/-! SUPPORT. The laws of pixels and of the draw loops. -/

namespace Sys2Proof.Machine

/-! The pixel mapping (R28) -/

theorem pixelByte_lt {cx cy : Nat} (hx : cx < 64) (hy : cy < 32) : pixelByte cx cy < Config.vramSize := by
  simp only [pixelByte, Config.vramSize]; omega

/-- Different pixels lie in different bytes or at different bits. -/
theorem pixel_place_inj {cx cy cx' cy' : Nat} (hx : cx < 64) (hx' : cx' < 64)
    (hb : pixelByte cx cy = pixelByte cx' cy') (hk : pixelBit cx = pixelBit cx') : cx = cx' ∧ cy = cy' := by
  simp only [pixelByte, pixelBit] at hb hk; omega

/-- Reading one pixel after writing one. -/
theorem pixel_setPixel {f : Framebuffer} (hf : f.wf = true) {cx cy cx' cy' : Nat} (hx : cx < 64) (hy : cy < 32)
    (hx' : cx' < 64) (b : Bool) :
    (f.setPixel cx cy b).pixel cx' cy' = if cx' = cx ∧ cy' = cy then b else f.pixel cx' cy' := by
  unfold Framebuffer.setPixel Framebuffer.pixel
  rw [Framebuffer.read_write hf]
  have hlt := pixelByte_lt hx hy
  have hbit : pixelBit cx < 8 := by simp only [pixelBit]; omega
  have hbit' : pixelBit cx' < 8 := by simp only [pixelBit]; omega
  by_cases hb : pixelByte cx' cy' = pixelByte cx cy
  · rw [if_pos ⟨hb, hlt⟩, getLsbD_setBit _ hbit hbit']
    by_cases hk : pixelBit cx' = pixelBit cx
    · rw [if_pos hk, if_pos (pixel_place_inj hx' hx hb hk)]
    · have : ¬ (cx' = cx ∧ cy' = cy) := fun e => hk (by rw [e.1])
      rw [if_neg hk, if_neg this, hb]
  · have : ¬ (cx' = cx ∧ cy' = cy) := fun e => hb (by rw [e.1, e.2])
    rw [if_neg (fun e => hb e.1), if_neg this]

/-! The loops keep VRAM canonical -/

theorem drawPixel_wf {cv : Canvas} (h : cv.vram.wf = true) (cx cy : Nat) : (drawPixel cx cy cv).vram.wf = true :=
  Framebuffer.wf_setPixel h _ _ _

theorem drawColumn_wf {cv : Canvas} (h : cv.vram.wf = true) (b : Byte) (x0 row c : Nat) :
    (drawColumn b x0 row cv c).vram.wf = true := by
  unfold drawColumn
  split
  · exact drawPixel_wf h _ _
  · exact h

theorem drawColumns_wf (cs : List Nat) {cv : Canvas} (h : cv.vram.wf = true) (b : Byte) (x0 row : Nat) :
    (cs.foldl (drawColumn b x0 row) cv).vram.wf = true := by
  induction cs generalizing cv with
  | nil => exact h
  | cons c cs ih => exact ih (drawColumn_wf h b x0 row c)

theorem drawRow_wf {cv : Canvas} (h : cv.vram.wf = true) (b : Byte) (x0 row : Nat) :
    (drawRow b x0 row cv).vram.wf = true :=
  drawColumns_wf _ h b x0 row

theorem drawRows_wf (bs : List Byte) {cv : Canvas} (h : cv.vram.wf = true) (x0 y : Nat) :
    (drawRows bs x0 y cv).vram.wf = true := by
  induction bs generalizing y cv with
  | nil => exact h
  | cons b bs ih => exact ih (drawRow_wf h b x0 _) (y + 1)

/-- The column of R142: every destination column is on the display. -/
theorem snapColumn_le (vx : Byte) : snapColumn vx ≤ 56 := by
  unfold snapColumn Config.displayW; split <;> omega

end Sys2Proof.Machine
end

