-- ==== Sys2Proof/Laws/Encoding.lean ====
section
/-! SUPPORT. The nibbles and fields of a concatenated word, which the decoder reads and the encoder writes; and what
the decoder answers, said once. -/

namespace Sys2Proof

section
variable (a b c d : Nibble) (kk : Byte) (nnn : Addr12)

/-! A word of four nibbles -/

@[simp] theorem nibA_nibbles : nibA (a ++ b ++ c ++ d) = a := by
  have h : (a ++ b ++ c ++ d).extractLsb' 12 4 = a := by
    ext k hk
    simp only [BitVec.getElem_extractLsb', BitVec.getLsbD_append]
    simp [show ¬ (12 + k < 4) by omega, show ¬ (12 + k - 4 < 4) by omega, show ¬ (12 + k - 4 - 4 < 4) by omega,
      show 12 + k - 4 - 4 - 4 = k by omega, hk]
  exact h

@[simp] theorem nibB_nibbles : nibB (a ++ b ++ c ++ d) = b := by
  have h : (a ++ b ++ c ++ d).extractLsb' 8 4 = b := by
    ext k hk
    simp only [BitVec.getElem_extractLsb', BitVec.getLsbD_append]
    simp [show ¬ (8 + k < 4) by omega, show ¬ (8 + k - 4 < 4) by omega, show 8 + k - 4 - 4 = k by omega, hk]
  exact h

@[simp] theorem nibC_nibbles : nibC (a ++ b ++ c ++ d) = c := by
  have h : (a ++ b ++ c ++ d).extractLsb' 4 4 = c := by
    ext k hk
    simp only [BitVec.getElem_extractLsb', BitVec.getLsbD_append]
    simp [show ¬ (4 + k < 4) by omega, show 4 + k - 4 = k by omega, hk]
  exact h

@[simp] theorem nibD_nibbles : nibD (a ++ b ++ c ++ d) = d := by
  have h : (a ++ b ++ c ++ d).extractLsb' 0 4 = d := by
    ext k hk
    simp only [BitVec.getElem_extractLsb', BitVec.getLsbD_append]
    simp [hk]
  exact h

/-- Every word is its four nibbles (R61). -/
theorem nibbles_of_word (w : Word) : nibA w ++ nibB w ++ nibC w ++ nibD w = w := by
  have h : ∀ k, k < 16 → (nibA w ++ nibB w ++ nibC w ++ nibD w).getLsbD k = w.getLsbD k := by
    intro k hk
    simp only [BitVec.getLsbD_append, nibA, nibB, nibC, nibD, BitVec.getLsbD_extractLsb']
    by_cases h1 : k < 4
    · simp [h1]
    by_cases h2 : k - 4 < 4
    · simp [h1, h2, show 4 + (k - 4) = k by omega]
    by_cases h3 : k - 4 - 4 < 4
    · simp [h1, h2, h3, show 8 + (k - 4 - 4) = k by omega]
    · simp [h1, h2, h3, show k - 4 - 4 - 4 < 4 by omega, show 12 + (k - 4 - 4 - 4) = k by omega]
  exact BitVec.eq_of_getLsbD_eq h

/-! A word of two nibbles and a byte -/

@[simp] theorem nibA_byte : nibA (a ++ b ++ kk) = a := by
  have h : (a ++ b ++ kk).extractLsb' 12 4 = a := by
    ext k hk
    simp only [BitVec.getElem_extractLsb', BitVec.getLsbD_append]
    simp [show ¬ (12 + k < 8) by omega, show ¬ (12 + k - 8 < 4) by omega, show 12 + k - 8 - 4 = k by omega, hk]
  exact h

@[simp] theorem nibB_byte : nibB (a ++ b ++ kk) = b := by
  have h : (a ++ b ++ kk).extractLsb' 8 4 = b := by
    ext k hk
    simp only [BitVec.getElem_extractLsb', BitVec.getLsbD_append]
    simp [show ¬ (8 + k < 8) by omega, show 8 + k - 8 = k by omega, hk]
  exact h

@[simp] theorem nibC_byte : nibC (a ++ b ++ kk) = kk.extractLsb' 4 4 := by
  have h : (a ++ b ++ kk).extractLsb' 4 4 = kk.extractLsb' 4 4 := by
    ext k hk
    simp only [BitVec.getElem_extractLsb', BitVec.getLsbD_append]
    simp [show 4 + k < 8 by omega]
  exact h

@[simp] theorem nibD_byte : nibD (a ++ b ++ kk) = kk.extractLsb' 0 4 := by
  have h : (a ++ b ++ kk).extractLsb' 0 4 = kk.extractLsb' 0 4 := by
    ext k hk
    simp only [BitVec.getElem_extractLsb', BitVec.getLsbD_append]
    simp [show k < 8 by omega]
  exact h

@[simp] theorem fieldKK_byte : fieldKK (a ++ b ++ kk) = kk := by
  have h : (a ++ b ++ kk).extractLsb' 0 8 = kk := by
    ext k hk
    simp only [BitVec.getElem_extractLsb', BitVec.getLsbD_append]
    simp [hk]
  exact h

/-- Every word is its top nibbles and its low byte. -/
theorem byte_of_word (w : Word) : nibA w ++ nibB w ++ fieldKK w = w := by
  have h : ∀ k, k < 16 → (nibA w ++ nibB w ++ fieldKK w).getLsbD k = w.getLsbD k := by
    intro k hk
    simp only [BitVec.getLsbD_append, nibA, nibB, fieldKK, BitVec.getLsbD_extractLsb']
    by_cases h1 : k < 8
    · simp [h1]
    by_cases h2 : k - 8 < 4
    · simp [h1, h2, show 8 + (k - 8) = k by omega]
    · simp [h1, h2, show k - 8 - 4 < 4 by omega, show 12 + (k - 8 - 4) = k by omega]
  exact BitVec.eq_of_getLsbD_eq h

/-- The low byte is its two nibbles. -/
theorem fieldKK_nibbles (w : Word) : fieldKK w = (nibC w ++ nibD w : Byte) := by
  have h : ∀ k, k < 8 → (fieldKK w).getLsbD k = (nibC w ++ nibD w).getLsbD k := by
    intro k hk
    simp only [BitVec.getLsbD_append, nibC, nibD, fieldKK, BitVec.getLsbD_extractLsb']
    by_cases h1 : k < 4
    · simp [h1, hk]
    · simp [h1, hk, show k - 4 < 4 by omega, show 4 + (k - 4) = k by omega]
  exact BitVec.eq_of_getLsbD_eq h

/-! A word of a nibble and a 12-bit immediate -/

@[simp] theorem nibA_addr : nibA (a ++ nnn) = a := by
  have h : (a ++ nnn).extractLsb' 12 4 = a := by
    ext k hk
    simp only [BitVec.getElem_extractLsb', BitVec.getLsbD_append]
    simp [show ¬ (12 + k < 12) by omega, show 12 + k - 12 = k by omega, hk]
  exact h

@[simp] theorem fieldNNN_addr : fieldNNN (a ++ nnn) = nnn := by
  have h : (a ++ nnn).extractLsb' 0 12 = nnn := by
    ext k hk
    simp only [BitVec.getElem_extractLsb', BitVec.getLsbD_append]
    simp [hk]
  exact h

/-- Every word is its top nibble and its low 12 bits. -/
theorem addr_of_word (w : Word) : nibA w ++ fieldNNN w = w := by
  have h : ∀ k, k < 16 → (nibA w ++ fieldNNN w).getLsbD k = w.getLsbD k := by
    intro k hk
    simp only [BitVec.getLsbD_append, nibA, fieldNNN, BitVec.getLsbD_extractLsb']
    by_cases h1 : k < 12
    · simp [h1]
    · simp [h1, show k - 12 < 4 by omega, show 12 + (k - 12) = k by omega]
  exact BitVec.eq_of_getLsbD_eq h

end

/-! The decoder -/

/-- What an answer of the decoder means: an entry of the table admits the word and built the instruction. -/
theorem decode_ok {w : Word} {i : Instr} (h : decode w = .ok i) :
    ∃ r ∈ definitionTable, r.admits w = true ∧ r.build w = i := by
  unfold decode at h
  split at h
  · next r hr =>
    refine ⟨r, List.mem_of_find?_eq_some hr, ?_, by simpa using h⟩
    simpa using List.find?_some hr
  · simp at h

/-- What a rejection means: no entry admits the word, and the rejection names it (R65, R69). -/
theorem decode_error {w : Word} {e : Reject} (h : decode w = .error e) :
    e = .noMatch w ∧ ∀ r ∈ definitionTable, r.admits w = false := by
  unfold decode at h
  split at h
  · simp at h
  · next hr =>
    refine ⟨by simpa using h.symm, fun r hm => ?_⟩
    simpa using List.find?_eq_none.mp hr r hm

end Sys2Proof
end

