-- ==== Sys2Proof/Laws/State.lean ====
section
/-! SUPPORT. One lemma per field per update of the state, so that no proof unfolds a record update. -/

namespace Sys2Proof.Machine

section
variable (s : State)

/-! `setV` -/
@[simp] theorem setV_v (x : RegIx) (b : Byte) : (s.setV x b).v = s.v.set x.toNat b := rfl
@[simp] theorem setV_i (x : RegIx) (b : Byte) : (s.setV x b).i = s.i := rfl
@[simp] theorem setV_dt (x : RegIx) (b : Byte) : (s.setV x b).dt = s.dt := rfl
@[simp] theorem setV_st (x : RegIx) (b : Byte) : (s.setV x b).st = s.st := rfl
@[simp] theorem setV_pc (x : RegIx) (b : Byte) : (s.setV x b).pc = s.pc := rfl
@[simp] theorem setV_sp (x : RegIx) (b : Byte) : (s.setV x b).sp = s.sp := rfl
@[simp] theorem setV_ram (x : RegIx) (b : Byte) : (s.setV x b).ram = s.ram := rfl
@[simp] theorem setV_vram (x : RegIx) (b : Byte) : (s.setV x b).vram = s.vram := rfl
@[simp] theorem setV_dirty (x : RegIx) (b : Byte) : (s.setV x b).dirty = s.dirty := rfl
@[simp] theorem setV_terminated (x : RegIx) (b : Byte) : (s.setV x b).terminated = s.terminated := rfl
@[simp] theorem setV_err (x : RegIx) (b : Byte) : (s.setV x b).err = s.err := rfl
@[simp] theorem setV_errInfo (x : RegIx) (b : Byte) : (s.setV x b).errInfo = s.errInfo := rfl
@[simp] theorem setV_params (x : RegIx) (b : Byte) : (s.setV x b).params = s.params := rfl
@[simp] theorem setV_draws (x : RegIx) (b : Byte) : (s.setV x b).draws = s.draws := rfl

/-! `setI` -/
@[simp] theorem setI_v (w : Word) : (s.setI w).v = s.v := rfl
@[simp] theorem setI_i (w : Word) : (s.setI w).i = w := rfl
@[simp] theorem setI_dt (w : Word) : (s.setI w).dt = s.dt := rfl
@[simp] theorem setI_st (w : Word) : (s.setI w).st = s.st := rfl
@[simp] theorem setI_pc (w : Word) : (s.setI w).pc = s.pc := rfl
@[simp] theorem setI_sp (w : Word) : (s.setI w).sp = s.sp := rfl
@[simp] theorem setI_ram (w : Word) : (s.setI w).ram = s.ram := rfl
@[simp] theorem setI_vram (w : Word) : (s.setI w).vram = s.vram := rfl
@[simp] theorem setI_dirty (w : Word) : (s.setI w).dirty = s.dirty := rfl
@[simp] theorem setI_terminated (w : Word) : (s.setI w).terminated = s.terminated := rfl
@[simp] theorem setI_err (w : Word) : (s.setI w).err = s.err := rfl
@[simp] theorem setI_errInfo (w : Word) : (s.setI w).errInfo = s.errInfo := rfl
@[simp] theorem setI_params (w : Word) : (s.setI w).params = s.params := rfl
@[simp] theorem setI_draws (w : Word) : (s.setI w).draws = s.draws := rfl
@[simp] theorem setI_getV (w : Word) (r : RegIx) : (s.setI w).getV r = s.getV r := rfl

/-! `setDt` -/
@[simp] theorem setDt_v (b : Byte) : (s.setDt b).v = s.v := rfl
@[simp] theorem setDt_i (b : Byte) : (s.setDt b).i = s.i := rfl
@[simp] theorem setDt_dt (b : Byte) : (s.setDt b).dt = b := rfl
@[simp] theorem setDt_st (b : Byte) : (s.setDt b).st = s.st := rfl
@[simp] theorem setDt_pc (b : Byte) : (s.setDt b).pc = s.pc := rfl
@[simp] theorem setDt_sp (b : Byte) : (s.setDt b).sp = s.sp := rfl
@[simp] theorem setDt_ram (b : Byte) : (s.setDt b).ram = s.ram := rfl
@[simp] theorem setDt_vram (b : Byte) : (s.setDt b).vram = s.vram := rfl
@[simp] theorem setDt_dirty (b : Byte) : (s.setDt b).dirty = s.dirty := rfl
@[simp] theorem setDt_terminated (b : Byte) : (s.setDt b).terminated = s.terminated := rfl
@[simp] theorem setDt_err (b : Byte) : (s.setDt b).err = s.err := rfl
@[simp] theorem setDt_errInfo (b : Byte) : (s.setDt b).errInfo = s.errInfo := rfl
@[simp] theorem setDt_params (b : Byte) : (s.setDt b).params = s.params := rfl
@[simp] theorem setDt_draws (b : Byte) : (s.setDt b).draws = s.draws := rfl
@[simp] theorem setDt_getV (b : Byte) (r : RegIx) : (s.setDt b).getV r = s.getV r := rfl

/-! `setSt` -/
@[simp] theorem setSt_v (b : Byte) : (s.setSt b).v = s.v := rfl
@[simp] theorem setSt_i (b : Byte) : (s.setSt b).i = s.i := rfl
@[simp] theorem setSt_dt (b : Byte) : (s.setSt b).dt = s.dt := rfl
@[simp] theorem setSt_st (b : Byte) : (s.setSt b).st = b := rfl
@[simp] theorem setSt_pc (b : Byte) : (s.setSt b).pc = s.pc := rfl
@[simp] theorem setSt_sp (b : Byte) : (s.setSt b).sp = s.sp := rfl
@[simp] theorem setSt_ram (b : Byte) : (s.setSt b).ram = s.ram := rfl
@[simp] theorem setSt_vram (b : Byte) : (s.setSt b).vram = s.vram := rfl
@[simp] theorem setSt_dirty (b : Byte) : (s.setSt b).dirty = s.dirty := rfl
@[simp] theorem setSt_terminated (b : Byte) : (s.setSt b).terminated = s.terminated := rfl
@[simp] theorem setSt_err (b : Byte) : (s.setSt b).err = s.err := rfl
@[simp] theorem setSt_errInfo (b : Byte) : (s.setSt b).errInfo = s.errInfo := rfl
@[simp] theorem setSt_params (b : Byte) : (s.setSt b).params = s.params := rfl
@[simp] theorem setSt_draws (b : Byte) : (s.setSt b).draws = s.draws := rfl
@[simp] theorem setSt_getV (b : Byte) (r : RegIx) : (s.setSt b).getV r = s.getV r := rfl

/-! `setPc` -/
@[simp] theorem setPc_v (w : Word) : (s.setPc w).v = s.v := rfl
@[simp] theorem setPc_i (w : Word) : (s.setPc w).i = s.i := rfl
@[simp] theorem setPc_dt (w : Word) : (s.setPc w).dt = s.dt := rfl
@[simp] theorem setPc_st (w : Word) : (s.setPc w).st = s.st := rfl
@[simp] theorem setPc_pc (w : Word) : (s.setPc w).pc = w := rfl
@[simp] theorem setPc_sp (w : Word) : (s.setPc w).sp = s.sp := rfl
@[simp] theorem setPc_ram (w : Word) : (s.setPc w).ram = s.ram := rfl
@[simp] theorem setPc_vram (w : Word) : (s.setPc w).vram = s.vram := rfl
@[simp] theorem setPc_dirty (w : Word) : (s.setPc w).dirty = s.dirty := rfl
@[simp] theorem setPc_terminated (w : Word) : (s.setPc w).terminated = s.terminated := rfl
@[simp] theorem setPc_err (w : Word) : (s.setPc w).err = s.err := rfl
@[simp] theorem setPc_errInfo (w : Word) : (s.setPc w).errInfo = s.errInfo := rfl
@[simp] theorem setPc_params (w : Word) : (s.setPc w).params = s.params := rfl
@[simp] theorem setPc_draws (w : Word) : (s.setPc w).draws = s.draws := rfl
@[simp] theorem setPc_getV (w : Word) (r : RegIx) : (s.setPc w).getV r = s.getV r := rfl

/-! `setSp` -/
@[simp] theorem setSp_v (b : Byte) : (s.setSp b).v = s.v := rfl
@[simp] theorem setSp_i (b : Byte) : (s.setSp b).i = s.i := rfl
@[simp] theorem setSp_dt (b : Byte) : (s.setSp b).dt = s.dt := rfl
@[simp] theorem setSp_st (b : Byte) : (s.setSp b).st = s.st := rfl
@[simp] theorem setSp_pc (b : Byte) : (s.setSp b).pc = s.pc := rfl
@[simp] theorem setSp_sp (b : Byte) : (s.setSp b).sp = b := rfl
@[simp] theorem setSp_ram (b : Byte) : (s.setSp b).ram = s.ram := rfl
@[simp] theorem setSp_vram (b : Byte) : (s.setSp b).vram = s.vram := rfl
@[simp] theorem setSp_dirty (b : Byte) : (s.setSp b).dirty = s.dirty := rfl
@[simp] theorem setSp_terminated (b : Byte) : (s.setSp b).terminated = s.terminated := rfl
@[simp] theorem setSp_err (b : Byte) : (s.setSp b).err = s.err := rfl
@[simp] theorem setSp_errInfo (b : Byte) : (s.setSp b).errInfo = s.errInfo := rfl
@[simp] theorem setSp_params (b : Byte) : (s.setSp b).params = s.params := rfl
@[simp] theorem setSp_draws (b : Byte) : (s.setSp b).draws = s.draws := rfl
@[simp] theorem setSp_getV (b : Byte) (r : RegIx) : (s.setSp b).getV r = s.getV r := rfl

/-! `setRam` -/
@[simp] theorem setRam_v (m : Memory) : (s.setRam m).v = s.v := rfl
@[simp] theorem setRam_i (m : Memory) : (s.setRam m).i = s.i := rfl
@[simp] theorem setRam_dt (m : Memory) : (s.setRam m).dt = s.dt := rfl
@[simp] theorem setRam_st (m : Memory) : (s.setRam m).st = s.st := rfl
@[simp] theorem setRam_pc (m : Memory) : (s.setRam m).pc = s.pc := rfl
@[simp] theorem setRam_sp (m : Memory) : (s.setRam m).sp = s.sp := rfl
@[simp] theorem setRam_ram (m : Memory) : (s.setRam m).ram = m := rfl
@[simp] theorem setRam_vram (m : Memory) : (s.setRam m).vram = s.vram := rfl
@[simp] theorem setRam_dirty (m : Memory) : (s.setRam m).dirty = s.dirty := rfl
@[simp] theorem setRam_terminated (m : Memory) : (s.setRam m).terminated = s.terminated := rfl
@[simp] theorem setRam_err (m : Memory) : (s.setRam m).err = s.err := rfl
@[simp] theorem setRam_errInfo (m : Memory) : (s.setRam m).errInfo = s.errInfo := rfl
@[simp] theorem setRam_params (m : Memory) : (s.setRam m).params = s.params := rfl
@[simp] theorem setRam_draws (m : Memory) : (s.setRam m).draws = s.draws := rfl
@[simp] theorem setRam_getV (m : Memory) (r : RegIx) : (s.setRam m).getV r = s.getV r := rfl

/-! `setVram` -/
@[simp] theorem setVram_v (f : Framebuffer) : (s.setVram f).v = s.v := rfl
@[simp] theorem setVram_i (f : Framebuffer) : (s.setVram f).i = s.i := rfl
@[simp] theorem setVram_dt (f : Framebuffer) : (s.setVram f).dt = s.dt := rfl
@[simp] theorem setVram_st (f : Framebuffer) : (s.setVram f).st = s.st := rfl
@[simp] theorem setVram_pc (f : Framebuffer) : (s.setVram f).pc = s.pc := rfl
@[simp] theorem setVram_sp (f : Framebuffer) : (s.setVram f).sp = s.sp := rfl
@[simp] theorem setVram_ram (f : Framebuffer) : (s.setVram f).ram = s.ram := rfl
@[simp] theorem setVram_vram (f : Framebuffer) : (s.setVram f).vram = f := rfl
@[simp] theorem setVram_dirty (f : Framebuffer) : (s.setVram f).dirty = s.dirty := rfl
@[simp] theorem setVram_terminated (f : Framebuffer) : (s.setVram f).terminated = s.terminated := rfl
@[simp] theorem setVram_err (f : Framebuffer) : (s.setVram f).err = s.err := rfl
@[simp] theorem setVram_errInfo (f : Framebuffer) : (s.setVram f).errInfo = s.errInfo := rfl
@[simp] theorem setVram_params (f : Framebuffer) : (s.setVram f).params = s.params := rfl
@[simp] theorem setVram_draws (f : Framebuffer) : (s.setVram f).draws = s.draws := rfl
@[simp] theorem setVram_getV (f : Framebuffer) (r : RegIx) : (s.setVram f).getV r = s.getV r := rfl

/-! `setDirty` -/
@[simp] theorem setDirty_v (b : Bool) : (s.setDirty b).v = s.v := rfl
@[simp] theorem setDirty_i (b : Bool) : (s.setDirty b).i = s.i := rfl
@[simp] theorem setDirty_dt (b : Bool) : (s.setDirty b).dt = s.dt := rfl
@[simp] theorem setDirty_st (b : Bool) : (s.setDirty b).st = s.st := rfl
@[simp] theorem setDirty_pc (b : Bool) : (s.setDirty b).pc = s.pc := rfl
@[simp] theorem setDirty_sp (b : Bool) : (s.setDirty b).sp = s.sp := rfl
@[simp] theorem setDirty_ram (b : Bool) : (s.setDirty b).ram = s.ram := rfl
@[simp] theorem setDirty_vram (b : Bool) : (s.setDirty b).vram = s.vram := rfl
@[simp] theorem setDirty_dirty (b : Bool) : (s.setDirty b).dirty = b := rfl
@[simp] theorem setDirty_terminated (b : Bool) : (s.setDirty b).terminated = s.terminated := rfl
@[simp] theorem setDirty_err (b : Bool) : (s.setDirty b).err = s.err := rfl
@[simp] theorem setDirty_errInfo (b : Bool) : (s.setDirty b).errInfo = s.errInfo := rfl
@[simp] theorem setDirty_params (b : Bool) : (s.setDirty b).params = s.params := rfl
@[simp] theorem setDirty_draws (b : Bool) : (s.setDirty b).draws = s.draws := rfl
@[simp] theorem setDirty_getV (b : Bool) (r : RegIx) : (s.setDirty b).getV r = s.getV r := rfl

/-! `setTerminated` -/
@[simp] theorem setTerminated_v (b : Bool) : (s.setTerminated b).v = s.v := rfl
@[simp] theorem setTerminated_i (b : Bool) : (s.setTerminated b).i = s.i := rfl
@[simp] theorem setTerminated_dt (b : Bool) : (s.setTerminated b).dt = s.dt := rfl
@[simp] theorem setTerminated_st (b : Bool) : (s.setTerminated b).st = s.st := rfl
@[simp] theorem setTerminated_pc (b : Bool) : (s.setTerminated b).pc = s.pc := rfl
@[simp] theorem setTerminated_sp (b : Bool) : (s.setTerminated b).sp = s.sp := rfl
@[simp] theorem setTerminated_ram (b : Bool) : (s.setTerminated b).ram = s.ram := rfl
@[simp] theorem setTerminated_vram (b : Bool) : (s.setTerminated b).vram = s.vram := rfl
@[simp] theorem setTerminated_dirty (b : Bool) : (s.setTerminated b).dirty = s.dirty := rfl
@[simp] theorem setTerminated_terminated (b : Bool) : (s.setTerminated b).terminated = b := rfl
@[simp] theorem setTerminated_err (b : Bool) : (s.setTerminated b).err = s.err := rfl
@[simp] theorem setTerminated_errInfo (b : Bool) : (s.setTerminated b).errInfo = s.errInfo := rfl
@[simp] theorem setTerminated_params (b : Bool) : (s.setTerminated b).params = s.params := rfl
@[simp] theorem setTerminated_draws (b : Bool) : (s.setTerminated b).draws = s.draws := rfl
@[simp] theorem setTerminated_getV (b : Bool) (r : RegIx) : (s.setTerminated b).getV r = s.getV r := rfl

/-! `drawn` -/
@[simp] theorem drawn_v : (s.drawn).v = s.v := rfl
@[simp] theorem drawn_i : (s.drawn).i = s.i := rfl
@[simp] theorem drawn_dt : (s.drawn).dt = s.dt := rfl
@[simp] theorem drawn_st : (s.drawn).st = s.st := rfl
@[simp] theorem drawn_pc : (s.drawn).pc = s.pc := rfl
@[simp] theorem drawn_sp : (s.drawn).sp = s.sp := rfl
@[simp] theorem drawn_ram : (s.drawn).ram = s.ram := rfl
@[simp] theorem drawn_vram : (s.drawn).vram = s.vram := rfl
@[simp] theorem drawn_dirty : (s.drawn).dirty = s.dirty := rfl
@[simp] theorem drawn_terminated : (s.drawn).terminated = s.terminated := rfl
@[simp] theorem drawn_err : (s.drawn).err = s.err := rfl
@[simp] theorem drawn_errInfo : (s.drawn).errInfo = s.errInfo := rfl
@[simp] theorem drawn_params : (s.drawn).params = s.params := rfl
@[simp] theorem drawn_draws : (s.drawn).draws = s.draws + 1 := rfl
@[simp] theorem drawn_getV (r : RegIx) : (s.drawn).getV r = s.getV r := rfl

/-! `raise` -/
@[simp] theorem raise_v (k : ErrorKind) (info : Word) : (s.raise k info).v = s.v := rfl
@[simp] theorem raise_i (k : ErrorKind) (info : Word) : (s.raise k info).i = s.i := rfl
@[simp] theorem raise_dt (k : ErrorKind) (info : Word) : (s.raise k info).dt = s.dt := rfl
@[simp] theorem raise_st (k : ErrorKind) (info : Word) : (s.raise k info).st = s.st := rfl
@[simp] theorem raise_pc (k : ErrorKind) (info : Word) : (s.raise k info).pc = s.pc := rfl
@[simp] theorem raise_sp (k : ErrorKind) (info : Word) : (s.raise k info).sp = s.sp := rfl
@[simp] theorem raise_ram (k : ErrorKind) (info : Word) : (s.raise k info).ram = s.ram := rfl
@[simp] theorem raise_vram (k : ErrorKind) (info : Word) : (s.raise k info).vram = s.vram := rfl
@[simp] theorem raise_dirty (k : ErrorKind) (info : Word) : (s.raise k info).dirty = s.dirty := rfl
@[simp] theorem raise_terminated (k : ErrorKind) (info : Word) : (s.raise k info).terminated = s.terminated := rfl
@[simp] theorem raise_err (k : ErrorKind) (info : Word) : (s.raise k info).err = k.code := rfl
@[simp] theorem raise_errInfo (k : ErrorKind) (info : Word) : (s.raise k info).errInfo = info := rfl
@[simp] theorem raise_params (k : ErrorKind) (info : Word) : (s.raise k info).params = s.params := rfl
@[simp] theorem raise_draws (k : ErrorKind) (info : Word) : (s.raise k info).draws = s.draws := rfl
@[simp] theorem raise_getV (k : ErrorKind) (info : Word) (r : RegIx) : (s.raise k info).getV r = s.getV r := rfl

/-! `advance` -/
@[simp] theorem advance_v : (s.advance).v = s.v := rfl
@[simp] theorem advance_i : (s.advance).i = s.i := rfl
@[simp] theorem advance_dt : (s.advance).dt = s.dt := rfl
@[simp] theorem advance_st : (s.advance).st = s.st := rfl
@[simp] theorem advance_pc : (s.advance).pc = s.pc + 2 := rfl
@[simp] theorem advance_sp : (s.advance).sp = s.sp := rfl
@[simp] theorem advance_ram : (s.advance).ram = s.ram := rfl
@[simp] theorem advance_vram : (s.advance).vram = s.vram := rfl
@[simp] theorem advance_dirty : (s.advance).dirty = s.dirty := rfl
@[simp] theorem advance_terminated : (s.advance).terminated = s.terminated := rfl
@[simp] theorem advance_err : (s.advance).err = s.err := rfl
@[simp] theorem advance_errInfo : (s.advance).errInfo = s.errInfo := rfl
@[simp] theorem advance_params : (s.advance).params = s.params := rfl
@[simp] theorem advance_draws : (s.advance).draws = s.draws := rfl
@[simp] theorem advance_getV (r : RegIx) : (s.advance).getV r = s.getV r := rfl

/-! `advanceTwice` -/
@[simp] theorem advanceTwice_v : (s.advanceTwice).v = s.v := rfl
@[simp] theorem advanceTwice_i : (s.advanceTwice).i = s.i := rfl
@[simp] theorem advanceTwice_dt : (s.advanceTwice).dt = s.dt := rfl
@[simp] theorem advanceTwice_st : (s.advanceTwice).st = s.st := rfl
@[simp] theorem advanceTwice_pc : (s.advanceTwice).pc = s.pc + 4 := rfl
@[simp] theorem advanceTwice_sp : (s.advanceTwice).sp = s.sp := rfl
@[simp] theorem advanceTwice_ram : (s.advanceTwice).ram = s.ram := rfl
@[simp] theorem advanceTwice_vram : (s.advanceTwice).vram = s.vram := rfl
@[simp] theorem advanceTwice_dirty : (s.advanceTwice).dirty = s.dirty := rfl
@[simp] theorem advanceTwice_terminated : (s.advanceTwice).terminated = s.terminated := rfl
@[simp] theorem advanceTwice_err : (s.advanceTwice).err = s.err := rfl
@[simp] theorem advanceTwice_errInfo : (s.advanceTwice).errInfo = s.errInfo := rfl
@[simp] theorem advanceTwice_params : (s.advanceTwice).params = s.params := rfl
@[simp] theorem advanceTwice_draws : (s.advanceTwice).draws = s.draws := rfl
@[simp] theorem advanceTwice_getV (r : RegIx) : (s.advanceTwice).getV r = s.getV r := rfl

/-! `push` -/
@[simp] theorem push_v (w : Word) : (s.push w).v = s.v := rfl
@[simp] theorem push_i (w : Word) : (s.push w).i = s.i := rfl
@[simp] theorem push_dt (w : Word) : (s.push w).dt = s.dt := rfl
@[simp] theorem push_st (w : Word) : (s.push w).st = s.st := rfl
@[simp] theorem push_pc (w : Word) : (s.push w).pc = s.pc := rfl
@[simp] theorem push_sp (w : Word) : (s.push w).sp = s.sp + 1 := rfl
@[simp] theorem push_ram (w : Word) : (s.push w).ram = s.ram.writeWord (stackAddr s s.sp.toNat) w := rfl
@[simp] theorem push_vram (w : Word) : (s.push w).vram = s.vram := rfl
@[simp] theorem push_dirty (w : Word) : (s.push w).dirty = s.dirty := rfl
@[simp] theorem push_terminated (w : Word) : (s.push w).terminated = s.terminated := rfl
@[simp] theorem push_err (w : Word) : (s.push w).err = s.err := rfl
@[simp] theorem push_errInfo (w : Word) : (s.push w).errInfo = s.errInfo := rfl
@[simp] theorem push_params (w : Word) : (s.push w).params = s.params := rfl
@[simp] theorem push_draws (w : Word) : (s.push w).draws = s.draws := rfl
@[simp] theorem push_getV (w : Word) (r : RegIx) : (s.push w).getV r = s.getV r := rfl

/-! `pop` -/
@[simp] theorem pop_v : (s.pop).v = s.v := rfl
@[simp] theorem pop_i : (s.pop).i = s.i := rfl
@[simp] theorem pop_dt : (s.pop).dt = s.dt := rfl
@[simp] theorem pop_st : (s.pop).st = s.st := rfl
@[simp] theorem pop_pc : (s.pop).pc = s.pc := rfl
@[simp] theorem pop_sp : (s.pop).sp = s.sp - 1 := rfl
@[simp] theorem pop_ram : (s.pop).ram = s.ram := rfl
@[simp] theorem pop_vram : (s.pop).vram = s.vram := rfl
@[simp] theorem pop_dirty : (s.pop).dirty = s.dirty := rfl
@[simp] theorem pop_terminated : (s.pop).terminated = s.terminated := rfl
@[simp] theorem pop_err : (s.pop).err = s.err := rfl
@[simp] theorem pop_errInfo : (s.pop).errInfo = s.errInfo := rfl
@[simp] theorem pop_params : (s.pop).params = s.params := rfl
@[simp] theorem pop_draws : (s.pop).draws = s.draws := rfl
@[simp] theorem pop_getV (r : RegIx) : (s.pop).getV r = s.getV r := rfl

/-! `getV` after `setV` -/
@[simp] theorem getV_setV_same (x : RegIx) (b : Byte) : (s.setV x b).getV x = b := by
  simp [State.getV, State.setV]

theorem getV_setV_ne {x r : RegIx} (h : r ≠ x) (b : Byte) : (s.setV x b).getV r = s.getV r := by
  have h' : x.toNat ≠ r.toNat := fun e => h (BitVec.eq_of_toNat_eq e.symm)
  simp [State.getV, State.setV, h']

theorem getV_setV (x r : RegIx) (b : Byte) : (s.setV x b).getV r = if r = x then b else s.getV r := by
  by_cases h : r = x
  · subst h; simp
  · simp [h, getV_setV_ne s h]

/-- Two states agree when their registers and all other fields do. -/
theorem State.ext_getV {s t : State} (hv : ∀ r, t.getV r = s.getV r) (hi : t.i = s.i) (hdt : t.dt = s.dt)
    (hst : t.st = s.st) (hpc : t.pc = s.pc) (hsp : t.sp = s.sp) (hram : t.ram = s.ram) (hvram : t.vram = s.vram)
    (hd : t.dirty = s.dirty) (ht : t.terminated = s.terminated) (he : t.err = s.err) (hei : t.errInfo = s.errInfo)
    (hp : t.params = s.params) (hdr : t.draws = s.draws) : t = s := by
  have hv' : t.v = s.v := by
    apply Vector.ext
    intro k hk
    have := hv (BitVec.ofNat 4 k)
    simpa [State.getV, Nat.mod_eq_of_lt hk] using this
  cases s; cases t; simp_all

end

end Sys2Proof.Machine
end

