-- ==== Sys2Proof/Laws/Ops.lean ====
section
/-! SUPPORT. For each shared operation, one lemma that says what it can do; callers cite it and do not unfold it. -/

namespace Sys2Proof.Machine

/-! Faults -/

/-- A trap always answers a next state, the state before it with `ERR` and `ERR_INFO` written (R165). -/
theorem trap_next {k : ErrorKind} {info : Word} {s t : State} (h : trap k info s = .next t) : t = s.raise k info := by
  simpa [trap] using h.symm

/-- No error kind has code 0 or code 7 (R160). -/
theorem code_range (k : ErrorKind) : k.code ≠ 0 ∧ k.code.toNat ≤ 6 := by cases k <;> decide

/-! The fetch (R46) -/

/-- The three things a fetch can answer. -/
theorem fetch_cases (s : State) :
    (s.pc.getLsbD 0 = true ∧ fetch s = .error (.fetchMisaligned, s.pc)) ∨
    (s.pc.getLsbD 0 = false ∧ Config.ramSize < s.pc.toNat + 2 ∧ fetch s = .error (.memoryBounds, s.pc)) ∨
    (s.pc.getLsbD 0 = false ∧ s.pc.toNat + 2 ≤ Config.ramSize ∧ fetch s = .ok (s.ram.readWord s.pc.toNat)) := by
  unfold fetch inRange
  by_cases h0 : s.pc.getLsbD 0
  · exact .inl ⟨h0, by simp [h0]⟩
  · by_cases h1 : s.pc.toNat + 2 ≤ Config.ramSize
    · exact .inr (.inr ⟨by simpa using h0, h1, by simp only [h0, h1, decide_true]; simp⟩)
    · exact .inr (.inl ⟨by simpa using h0, by omega, by simp only [h0, h1, decide_false]; simp⟩)

/-! Data accesses (R136, R162) -/

/-- An access is made whole, or `MemoryBoundsError(I)` is taken. -/
theorem withDataRange_next {n : Nat} {s t t' : State} (h : withDataRange n s t = .next t') :
    (s.i.toNat + n ≤ Config.ramSize ∧ t' = t) ∨
    (Config.ramSize < s.i.toNat + n ∧ t' = s.raise .memoryBounds s.i) := by
  unfold withDataRange inRange at h
  split at h
  · next hr => exact .inl ⟨by simpa using hr, by simpa using h.symm⟩
  · next hr => exact .inr ⟨by simpa using hr, trap_next h⟩

theorem withDataRange_ok {n : Nat} {s t : State} (h : s.i.toNat + n ≤ Config.ramSize) :
    withDataRange n s t = .next t := by
  simp only [withDataRange, inRange, h, decide_true, if_true]

theorem withDataRange_out {n : Nat} {s t : State} (h : Config.ramSize < s.i.toNat + n) :
    withDataRange n s t = .next (s.raise .memoryBounds s.i) := by
  have : ¬ (s.i.toNat + n ≤ Config.ramSize) := by omega
  simp only [withDataRange, inRange, this, decide_false, trap]; simp

/-! Skips (R104) -/

/-- A skip answers a next state that differs in `pc` only. -/
theorem skipIf_eq (c : Bool) (s : State) : skipIf c s = .next (s.setPc (if c then s.pc + 4 else s.pc + 2)) := by
  cases c <;> rfl

/-! Register ranges (R134, R135) -/

@[simp] theorem length_regsFrom (s : State) (k n : Nat) : (s.regsFrom k n).length = n := by
  induction n generalizing k with
  | zero => rfl
  | succ n ih => simp [State.regsFrom, ih]

theorem getElem_regsFrom (s : State) (k n j : Nat) (h : j < (s.regsFrom k n).length) :
    (s.regsFrom k n)[j] = s.getV (BitVec.ofNat 4 (k + j)) := by
  induction n generalizing k j with
  | zero => simp at h
  | succ n ih =>
    cases j with
    | zero => simp [State.regsFrom]
    | succ j =>
      have h' : j < (s.regsFrom (k + 1) n).length := by simpa [State.regsFrom] using h
      simpa [State.regsFrom, Nat.add_assoc, Nat.add_comm 1 j] using ih (k + 1) j h'

/-- Loading registers changes registers only. -/
theorem loadFrom_frame (s : State) (k : Nat) (bs : List Byte) : s.loadFrom k bs = { s with v := (s.loadFrom k bs).v } := by
  induction bs generalizing s k with
  | nil => rfl
  | cons b bs ih => rw [State.loadFrom, ih]; rfl

/-- A register outside the range loaded keeps its value; one inside holds its byte. -/
theorem loadFrom_getV (s : State) (k : Nat) (bs : List Byte) (h : k + bs.length ≤ 16) (r : RegIx) :
    (s.loadFrom k bs).getV r =
      if hr : k ≤ r.toNat ∧ r.toNat - k < bs.length then bs[r.toNat - k]'hr.2 else s.getV r := by
  induction bs generalizing s k with
  | nil => simp [State.loadFrom]
  | cons b bs ih =>
    simp only [List.length_cons] at h
    rw [State.loadFrom, ih _ _ (by omega), getV_setV]
    have hk : k < 16 := by omega
    by_cases h1 : k + 1 ≤ r.toNat ∧ r.toNat - (k + 1) < bs.length
    · have h2 : k ≤ r.toNat ∧ r.toNat - k < (b :: bs).length := by simp only [List.length_cons]; omega
      rw [dif_pos h1, dif_pos h2]
      have e : r.toNat - k = (r.toNat - (k + 1)) + 1 := by omega
      simp [e]
    · rw [dif_neg h1]
      by_cases h3 : r = BitVec.ofNat 4 k
      · have h4 : r.toNat = k := by subst h3; simp [Nat.mod_eq_of_lt hk]
        have h2 : k ≤ r.toNat ∧ r.toNat - k < (b :: bs).length := by simp only [List.length_cons]; omega
        rw [if_pos h3, dif_pos h2]
        simp [h4]
      · have h4 : r.toNat ≠ k := fun e => h3 (BitVec.eq_of_toNat_eq (by simp [e, Nat.mod_eq_of_lt hk]))
        have h2 : ¬ (k ≤ r.toNat ∧ r.toNat - k < (b :: bs).length) := by simp only [List.length_cons]; omega
        rw [if_neg h3, dif_neg h2]

/-! The stack (R18) -/

/-- With legal parameters a stack entry lies below the font (R6, R163). -/
theorem stackAddr_lt {s : State} (hp : s.params.wf = true) {k : Nat} (hk : k < s.params.stackDepth) :
    stackAddr s k + 2 ≤ Config.fontBase := by
  simp [Params.wf] at hp
  have := hp.2
  simp only [stackAddr, Config.fontBase] at *
  omega

/-! Flags -/

@[simp] theorem flagByte_true : flagByte true = 1 := rfl
@[simp] theorem flagByte_false : flagByte false = 0 := rfl

/-- A flag byte is 0x00 or 0x01 (R11). -/
theorem flagByte_range (b : Bool) : flagByte b = 0 ∨ flagByte b = 1 := by cases b <;> simp

end Sys2Proof.Machine
end

