-- ==== Sys2Proof/Laws/PerInstr.lean ====
section
/-! SUPPORT. Laws said once per instruction. The family `Pattern`: the encoded word, under the `mask` of its row of
spec/opcode_table.json, is the row's `match` (R65, R66). The numbers below are copied from the table. -/

namespace Sys2Proof.Laws.Pattern

/-- `mask` and `match` of an instruction's row in spec/opcode_table.json. -/
def numbers : Instr → Word × Word
  | .cls => (0xFFFF, 0x00E0)
  | .ret => (0xFFFF, 0x00EE)
  | .jp _ => (0xF000, 0x1000)
  | .call _ => (0xF000, 0x2000)
  | .seImm _ _ => (0xF000, 0x3000)
  | .sneImm _ _ => (0xF000, 0x4000)
  | .seReg _ _ => (0xF00F, 0x5000)
  | .ldImm _ _ => (0xF000, 0x6000)
  | .addImm _ _ => (0xF000, 0x7000)
  | .ldReg _ _ => (0xF00F, 0x8000)
  | .orReg _ _ => (0xF00F, 0x8001)
  | .andReg _ _ => (0xF00F, 0x8002)
  | .xorReg _ _ => (0xF00F, 0x8003)
  | .addReg _ _ => (0xF00F, 0x8004)
  | .subReg _ _ => (0xF00F, 0x8005)
  | .shr _ _ => (0xF00F, 0x8006)
  | .subnReg _ _ => (0xF00F, 0x8007)
  | .shl _ _ => (0xF00F, 0x800E)
  | .sneReg _ _ => (0xF00F, 0x9000)
  | .ldI _ => (0xF000, 0xA000)
  | .jpV0 _ => (0xF000, 0xB000)
  | .rnd _ _ => (0xF000, 0xC000)
  | .drw _ _ _ => (0xF000, 0xD000)
  | .skp _ => (0xF0FF, 0xE09E)
  | .sknp _ => (0xF0FF, 0xE0A1)
  | .ldFromDt _ => (0xF0FF, 0xF007)
  | .ldKey _ => (0xF0FF, 0xF00A)
  | .ldToDt _ => (0xF0FF, 0xF015)
  | .ldToSt _ => (0xF0FF, 0xF018)
  | .addI _ => (0xF0FF, 0xF01E)
  | .ldFont _ => (0xF0FF, 0xF029)
  | .ldBcd _ => (0xF0FF, 0xF033)
  | .storeRegs _ => (0xF0FF, 0xF055)
  | .loadRegs _ => (0xF0FF, 0xF065)

/-- The encoded word meets its row's `mask` and `match`. -/
def Statement (i : Instr) : Prop := encode i &&& (numbers i).1 = (numbers i).2

section
variable (a b c d : Nibble) (kk : Byte) (nnn : Addr12)

theorem and_ones4 : a &&& 15#4 = a := BitVec.and_allOnes (x := a)
theorem and_ones8 : kk &&& 255#8 = kk := BitVec.and_allOnes (x := kk)

theorem mask_addr : (a ++ nnn) &&& (0xF000#16) = a ++ 0#12 := by
  have h : (a ++ nnn) &&& (0xF#4 ++ 0#12) = a ++ 0#12 := by
    rw [BitVec.and_append]; simp [and_ones4]
  exact h

theorem mask_byte : (a ++ b ++ kk) &&& (0xF000#16) = a ++ 0#4 ++ 0#8 := by
  have h : (a ++ b ++ kk) &&& (0xF#4 ++ 0#4 ++ 0#8) = a ++ 0#4 ++ 0#8 := by
    rw [BitVec.and_append, BitVec.and_append]; simp [and_ones4]
  exact h

theorem mask_low_byte : (a ++ b ++ kk) &&& (0xF0FF#16) = a ++ 0#4 ++ kk := by
  have h : (a ++ b ++ kk) &&& (0xF#4 ++ 0#4 ++ 0xFF#8) = a ++ 0#4 ++ kk := by
    rw [BitVec.and_append, BitVec.and_append]; simp [and_ones4, and_ones8]
  exact h

theorem mask_low_nibble : (a ++ b ++ c ++ d) &&& (0xF00F#16) = a ++ 0#4 ++ 0#4 ++ d := by
  have h : (a ++ b ++ c ++ d) &&& (0xF#4 ++ 0#4 ++ 0#4 ++ 0xF#4) = a ++ 0#4 ++ 0#4 ++ d := by
    rw [BitVec.and_append, BitVec.and_append, BitVec.and_append]; simp [and_ones4]
  exact h

theorem mask_top : (a ++ b ++ c ++ d) &&& (0xF000#16) = a ++ 0#4 ++ 0#4 ++ 0#4 := by
  have h : (a ++ b ++ c ++ d) &&& (0xF#4 ++ 0#4 ++ 0#4 ++ 0#4) = a ++ 0#4 ++ 0#4 ++ 0#4 := by
    rw [BitVec.and_append, BitVec.and_append, BitVec.and_append]; simp [and_ones4]
  exact h

end

theorem cls : Statement .cls := rfl
theorem ret : Statement .ret := rfl
theorem jp (nnn : Addr12) : Statement (.jp nnn) := mask_addr _ _
theorem call (nnn : Addr12) : Statement (.call nnn) := mask_addr _ _
theorem seImm (x : RegIx) (kk : Byte) : Statement (.seImm x kk) := mask_byte _ _ _
theorem sneImm (x : RegIx) (kk : Byte) : Statement (.sneImm x kk) := mask_byte _ _ _
theorem seReg (x y : RegIx) : Statement (.seReg x y) := mask_low_nibble _ _ _ _
theorem ldImm (x : RegIx) (kk : Byte) : Statement (.ldImm x kk) := mask_byte _ _ _
theorem addImm (x : RegIx) (kk : Byte) : Statement (.addImm x kk) := mask_byte _ _ _
theorem ldReg (x y : RegIx) : Statement (.ldReg x y) := mask_low_nibble _ _ _ _
theorem orReg (x y : RegIx) : Statement (.orReg x y) := mask_low_nibble _ _ _ _
theorem andReg (x y : RegIx) : Statement (.andReg x y) := mask_low_nibble _ _ _ _
theorem xorReg (x y : RegIx) : Statement (.xorReg x y) := mask_low_nibble _ _ _ _
theorem addReg (x y : RegIx) : Statement (.addReg x y) := mask_low_nibble _ _ _ _
theorem subReg (x y : RegIx) : Statement (.subReg x y) := mask_low_nibble _ _ _ _
theorem shr (x y : RegIx) : Statement (.shr x y) := mask_low_nibble _ _ _ _
theorem subnReg (x y : RegIx) : Statement (.subnReg x y) := mask_low_nibble _ _ _ _
theorem shl (x y : RegIx) : Statement (.shl x y) := mask_low_nibble _ _ _ _
theorem sneReg (x y : RegIx) : Statement (.sneReg x y) := mask_low_nibble _ _ _ _
theorem ldI (nnn : Addr12) : Statement (.ldI nnn) := mask_addr _ _
theorem jpV0 (nnn : Addr12) : Statement (.jpV0 nnn) := mask_addr _ _
theorem rnd (x : RegIx) (kk : Byte) : Statement (.rnd x kk) := mask_byte _ _ _
theorem drw (x y : RegIx) (n : Nibble) : Statement (.drw x y n) := mask_top _ _ _ _
theorem skp (x : RegIx) : Statement (.skp x) := mask_low_byte _ _ _
theorem sknp (x : RegIx) : Statement (.sknp x) := mask_low_byte _ _ _
theorem ldFromDt (x : RegIx) : Statement (.ldFromDt x) := mask_low_byte _ _ _
theorem ldKey (x : RegIx) : Statement (.ldKey x) := mask_low_byte _ _ _
theorem ldToDt (x : RegIx) : Statement (.ldToDt x) := mask_low_byte _ _ _
theorem ldToSt (x : RegIx) : Statement (.ldToSt x) := mask_low_byte _ _ _
theorem addI (x : RegIx) : Statement (.addI x) := mask_low_byte _ _ _
theorem ldFont (x : RegIx) : Statement (.ldFont x) := mask_low_byte _ _ _
theorem ldBcd (x : RegIx) : Statement (.ldBcd x) := mask_low_byte _ _ _
theorem storeRegs (x : RegIx) : Statement (.storeRegs x) := mask_low_byte _ _ _
theorem loadRegs (x : RegIx) : Statement (.loadRegs x) := mask_low_byte _ _ _

end Sys2Proof.Laws.Pattern
end

