-- ==== Sys2Proof/Laws/Step.lean ====
section
/-! SUPPORT. What a step can do, said once. -/

namespace Sys2Proof.Machine

/-- In the Running state a step is fetch, decode, execute (R80). -/
theorem step_running {s : State} (hr : s.running) : step s =
    match fetch s with
    | .error (k, info) => trap k info s
    | .ok op =>
      match decode op with
      | .error _ => trap .decodeError op s
      | .ok i => exec i s := by
  obtain ⟨ht, he⟩ := hr
  have h1 : ¬ ((s.err != 0) = true) := by simp [he]
  have h2 : ¬ (s.terminated = true) := by simp [ht]
  unfold step
  exact (if_neg h1).trans (if_neg h2)

/-- A step that answers a next state ran in the Running state, and was a fetch fault, a decode fault, or the meaning of
the instruction fetched (R80, R168). -/
theorem step_cases {s t : State} (h : step s = .next t) :
    s.running ∧
    ((s.pc.getLsbD 0 = true ∧ t = s.raise .fetchMisaligned s.pc) ∨
     (s.pc.getLsbD 0 = false ∧ Config.ramSize < s.pc.toNat + 2 ∧ t = s.raise .memoryBounds s.pc) ∨
     (s.fetchable ∧ decode (s.ram.readWord s.pc.toNat) = .error (.noMatch (s.ram.readWord s.pc.toNat)) ∧
        t = s.raise .decodeError (s.ram.readWord s.pc.toNat)) ∨
     (s.fetchable ∧ ∃ i, decode (s.ram.readWord s.pc.toNat) = .ok i ∧ exec i s = .next t)) := by
  unfold step at h
  by_cases he : s.err = 0
  · by_cases ht : s.terminated
    · simp [he, ht] at h
    · have hrun : s.running := ⟨by simpa using ht, he⟩
      refine ⟨hrun, ?_⟩
      simp only [he, ht, bne_self_eq_false, Bool.false_eq_true, if_false] at h
      rcases fetch_cases s with ⟨h0, hf⟩ | ⟨h0, h1, hf⟩ | ⟨h0, h1, hf⟩
      · rw [hf] at h; exact .inl ⟨h0, trap_next h⟩
      · rw [hf] at h; exact .inr (.inl ⟨h0, h1, trap_next h⟩)
      · rw [hf] at h
        simp only at h
        cases hd : decode (s.ram.readWord s.pc.toNat) with
        | error e =>
          rw [hd] at h
          have he := (decode_error hd).1
          exact .inr (.inr (.inl ⟨⟨h0, h1⟩, by rw [he], trap_next h⟩))
        | ok i =>
          rw [hd] at h
          exact .inr (.inr (.inr ⟨⟨h0, h1⟩, i, rfl, h⟩))
  · rw [if_pos (bne_iff_ne.mpr he)] at h
    cases h

/-! What `exec` can do -/

/-- Where an instruction's own fault lies: the kind and datum it is taken with (R171). -/
def faultSite (i : Instr) (s : State) (k : ErrorKind) (info : Word) : Prop :=
  match i with
  | .call _ => s.sp.toNat = s.params.stackDepth ∧ k = .stackOverflow ∧ info = 0
  | .ret => s.sp.toNat = 0 ∧ k = .stackUnderflow ∧ info = 0
  | .drw _ _ n => Config.ramSize ≤ s.i.toNat + n.toNat ∧ k = .memoryBounds ∧ info = s.i
  | .ldBcd _ => Config.ramSize < s.i.toNat + 3 ∧ k = .memoryBounds ∧ info = s.i
  | .storeRegs x => Config.ramSize < s.i.toNat + (x.toNat + 1) ∧ k = .memoryBounds ∧ info = s.i
  | .loadRegs x => Config.ramSize < s.i.toNat + (x.toNat + 1) ∧ k = .memoryBounds ∧ info = s.i
  | _ => False

/-- The value of `Terminated` after an instruction that takes no fault. -/
def terminatedAfter (i : Instr) (s : State) : Bool :=
  match i with
  | .jp nnn => s.terminated || zext16 nnn == s.pc
  | _ => s.terminated

/-- What every instruction leaves that takes no fault. -/
structure Completed (i : Instr) (s t : State) : Prop where
  err : t.err = s.err
  errInfo : t.errInfo = s.errInfo
  params : t.params = s.params
  terminated : t.terminated = terminatedAfter i s
  site : ∀ k info, ¬ faultSite i s k info

/-- The meaning of an instruction answers its own fault, taken where its site says, or completes. -/
theorem exec_cases {i : Instr} {s t : State} (h : exec i s = .next t) :
    (∃ k info, faultSite i s k info ∧ t = s.raise k info) ∨ Completed i s t := by
  cases i
  case call nnn =>
    simp only [exec, execCall] at h
    split at h
    · next hd => exact .inl ⟨_, _, ⟨hd, rfl, rfl⟩, trap_next h⟩
    · next hd => cases h; exact .inr ⟨rfl, rfl, rfl, rfl, fun _ _ e => hd e.1⟩
  case ret =>
    simp only [exec, execRet] at h
    split at h
    · next hd => exact .inl ⟨_, _, ⟨hd, rfl, rfl⟩, trap_next h⟩
    · next hd => cases h; exact .inr ⟨rfl, rfl, rfl, rfl, fun _ _ e => hd e.1⟩
  case drw x y n =>
    simp only [exec, execDrw] at h
    split at h
    · next hd => exact .inl ⟨_, _, ⟨hd, rfl, rfl⟩, trap_next h⟩
    · next hd => cases h; exact .inr ⟨rfl, rfl, rfl, rfl, fun _ _ e => hd e.1⟩
  case ldBcd x =>
    rcases withDataRange_next h with ⟨h1, h2⟩ | ⟨h1, h2⟩
    · subst h2; exact .inr ⟨rfl, rfl, rfl, rfl, fun _ _ e => Nat.not_lt.mpr h1 e.1⟩
    · exact .inl ⟨_, _, ⟨h1, rfl, rfl⟩, h2⟩
  case storeRegs x =>
    rcases withDataRange_next h with ⟨h1, h2⟩ | ⟨h1, h2⟩
    · subst h2
      simp only [State.regsUpTo, length_regsFrom] at h1
      exact .inr ⟨rfl, rfl, rfl, rfl, fun _ _ e => Nat.not_lt.mpr h1 e.1⟩
    · simp only [State.regsUpTo, length_regsFrom] at h1
      exact .inl ⟨_, _, ⟨h1, rfl, rfl⟩, h2⟩
  case loadRegs x =>
    rcases withDataRange_next h with ⟨h1, h2⟩ | ⟨h1, h2⟩
    · subst h2
      rw [loadFrom_frame]
      exact .inr ⟨rfl, rfl, rfl, rfl, fun _ _ e => Nat.not_lt.mpr h1 e.1⟩
    · exact .inl ⟨_, _, ⟨h1, rfl, rfl⟩, h2⟩
  case seImm => rw [exec, execSeImm, skipIf_eq] at h; cases h; exact .inr ⟨rfl, rfl, rfl, rfl, fun _ _ e => e⟩
  case sneImm => rw [exec, execSneImm, skipIf_eq] at h; cases h; exact .inr ⟨rfl, rfl, rfl, rfl, fun _ _ e => e⟩
  case seReg => rw [exec, execSeReg, skipIf_eq] at h; cases h; exact .inr ⟨rfl, rfl, rfl, rfl, fun _ _ e => e⟩
  case sneReg => rw [exec, execSneReg, skipIf_eq] at h; cases h; exact .inr ⟨rfl, rfl, rfl, rfl, fun _ _ e => e⟩
  all_goals
    cases h
    exact .inr ⟨rfl, rfl, rfl, rfl, fun _ _ e => e⟩

/-- The launch with nothing asked for is the reset state (R29, R190). -/
theorem launch_default : launch defaultParams [] 0 = State.reset := rfl

/-- A launch has canonical RAM whatever `RAM_INIT` it was given (R191). -/
theorem launchRam_wf (cells : List Host.Cell) {m : Memory} (hm : m.wf = true) : (launchRam cells m).wf = true := by
  induction cells generalizing m with
  | nil => exact hm
  | cons c cells ih =>
    obtain ⟨a, v⟩ := c
    unfold launchRam
    split
    · exact ih hm
    · exact ih (Memory.wf_write hm a v)

/-- A load keeps RAM canonical (R196). -/
theorem load_wf {s : State} (hm : s.ram.wf = true) (bytes : List Byte) : (s.load bytes).ram.wf = true := by
  unfold State.load
  split
  · exact hm
  · exact Memory.wf_writeBytes hm _ _

end Sys2Proof.Machine
end

