-- ==== Sys2Proof/Tests/Slice0.lean ====
section
/-! SUPPORT. Tests: the well-formedness checks, decoding from words written out, one-step vectors of
spec/95_test_vectors.md (the name of a test ends in the vector's name), and for every statement with hypotheses a
witness that meets them. -/

set_option Elab.async false -- so many small theorems at once would take a thread each

namespace Sys2Proof.Machine

/-! Helpers -/

/-- The reset state with a word at 0x200, where the first fetch is (the start state of 95_test_vectors.md). -/
def holding (w : Word) : State := State.reset.withFetchWord 16 w.toNat

def withV (rs : List (RegIx × Byte)) (s : State) : State := rs.foldl (fun s r => s.setV r.1 r.2) s

def withRam (a : Nat) (bs : List Byte) (s : State) : State := s.setRam (s.ram.writeBytes a bs)

def withVram (k : Nat) (b : Byte) (s : State) : State := s.setVram (s.vram.write k b)

/-- A word at an address, and `pc` there. -/
def holdingAt (a : Word) (w : Word) : State := (State.reset.setPc a).withFetchWord 16 w.toNat

/-- One step answers a next state with the property. -/
def after (s : State) (p : State → Bool) : Bool :=
  match step s with
  | .next t => p t
  | .fault _ => false
  | .refused _ => false

/-- An `after` that names the whole next state is an equation of the step. -/
theorem step_of_after {s t : State} (h : after s (fun u => u == t) = true) : step s = .next t := by
  unfold after at h
  split at h
  · next u hu => rw [hu, eq_of_beq h]
  · cases h
  · cases h

/-- The step takes a fault, and changes nothing but `ERR` and `ERR_INFO`. -/
def faults (s : State) (code : BitVec 3) (info : Word) : Bool :=
  after s fun t => t == { s with err := code, errInfo := info }

/-! Well-formedness: a good term and an ill-formed one for each check -/

theorem test_params_default : Params.wf defaultParams = true := by decide
theorem test_params_highest_base : Params.wf ⟨0xE0, 16⟩ = true := by decide
theorem test_params_overlap_font : Params.wf ⟨0xE1, 16⟩ = false := by decide
theorem test_params_no_entry : Params.wf ⟨0, 0⟩ = false := by decide
theorem test_params_deepest : Params.wf ⟨0, 128⟩ = true := by decide
theorem test_params_too_deep : Params.wf ⟨0, 129⟩ = false := by decide
theorem test_program_largest : programWf (List.replicate 3584 0xFF) = true := by
  rw [programWf, List.length_replicate]; decide
theorem test_program_too_large : programWf (List.replicate 3585 0xFF) = false := by
  rw [programWf, List.length_replicate]; decide
theorem test_memory_canonical : Memory.wf [(0x100, 0), (0xFFF, 1)] = true := by decide
theorem test_memory_unsorted : Memory.wf [(0x201, 1), (0x200, 1)] = false := by decide
theorem test_memory_repeated : Memory.wf [(0x200, 1), (0x200, 2)] = false := by decide
theorem test_memory_lists_zero : Memory.wf [(0x200, 0)] = false := by decide
theorem test_memory_lists_font : Memory.wf [(0x100, 0xF0)] = false := by decide
theorem test_memory_outside : Memory.wf [(0x1000, 1)] = false := by decide
theorem test_framebuffer_canonical : Framebuffer.wf [(0, 1), (255, 0x80)] = true := by decide
theorem test_framebuffer_outside : Framebuffer.wf [(256, 1)] = false := by decide
theorem test_framebuffer_lists_zero : Framebuffer.wf [(3, 0)] = false := by decide
/-- No instruction term is ill-formed: the operand types are the field widths (R10, R63). -/
theorem test_instr_wf_refuses_nothing (i : Instr) : i.wf = true := by
  have h : ∀ x : RegIx, RegIx.wf x = true := by decide
  cases i <;> simp [Instr.wf, h]

/-! Decoding: words written out from the encodings of R66 (D1), x = 1010, y = 1011 -/

theorem test_decode_control_D1 :
    decode 0b0000_0000_1110_0000 = .ok .cls ∧ decode 0b0000_0000_1110_1110 = .ok .ret ∧
    decode 0b0001_1010_1011_1100 = .ok (.jp 0xABC) ∧ decode 0b0010_1010_1011_1100 = .ok (.call 0xABC) ∧
    decode 0b1011_0001_0010_0011 = .ok (.jpV0 0x123) := by decide

theorem test_decode_skips_D1 :
    decode 0b0011_1010_0101_0101 = .ok (.seImm 0xA 0x55) ∧ decode 0b0100_1010_0101_0101 = .ok (.sneImm 0xA 0x55) ∧
    decode 0b0101_1010_1011_0000 = .ok (.seReg 0xA 0xB) ∧ decode 0b1001_1010_1011_0000 = .ok (.sneReg 0xA 0xB) := by
  decide

theorem test_decode_loads_and_logic_D1 :
    decode 0b0110_1010_0101_0101 = .ok (.ldImm 0xA 0x55) ∧ decode 0b0111_1010_0101_0101 = .ok (.addImm 0xA 0x55) ∧
    decode 0b1000_1010_1011_0000 = .ok (.ldReg 0xA 0xB) ∧ decode 0b1000_1010_1011_0001 = .ok (.orReg 0xA 0xB) ∧
    decode 0b1000_1010_1011_0010 = .ok (.andReg 0xA 0xB) ∧ decode 0b1000_1010_1011_0011 = .ok (.xorReg 0xA 0xB) := by
  decide

theorem test_decode_arithmetic_D1 :
    decode 0b1000_1010_1011_0100 = .ok (.addReg 0xA 0xB) ∧ decode 0b1000_1010_1011_0101 = .ok (.subReg 0xA 0xB) ∧
    decode 0b1000_1010_1011_0110 = .ok (.shr 0xA 0xB) ∧ decode 0b1000_1010_1011_0111 = .ok (.subnReg 0xA 0xB) ∧
    decode 0b1000_1010_1011_1110 = .ok (.shl 0xA 0xB) ∧ decode 0b1100_1010_0000_1111 = .ok (.rnd 0xA 0x0F) := by
  decide

theorem test_decode_index_D1 :
    decode 0b1010_0001_0010_0011 = .ok (.ldI 0x123) ∧ decode 0b1111_1010_0001_1110 = .ok (.addI 0xA) ∧
    decode 0b1111_1010_0010_1001 = .ok (.ldFont 0xA) ∧ decode 0b1111_1010_0011_0011 = .ok (.ldBcd 0xA) ∧
    decode 0b1111_1010_0101_0101 = .ok (.storeRegs 0xA) ∧ decode 0b1111_1010_0110_0101 = .ok (.loadRegs 0xA) := by
  decide

theorem test_decode_display_keys_timers_D1 :
    decode 0b1101_1010_1011_0101 = .ok (.drw 0xA 0xB 0x5) ∧ decode 0b1110_1010_1001_1110 = .ok (.skp 0xA) ∧
    decode 0b1110_1010_1010_0001 = .ok (.sknp 0xA) ∧ decode 0b1111_1010_0000_0111 = .ok (.ldFromDt 0xA) ∧
    decode 0b1111_1010_0000_1010 = .ok (.ldKey 0xA) ∧ decode 0b1111_1010_0001_0101 = .ok (.ldToDt 0xA) ∧
    decode 0b1111_1010_0001_1000 = .ok (.ldToSt 0xA) := by
  decide

theorem test_decode_illegal_words_D2 :
    ([0x0000, 0x00E1, 0x00FF, 0x0123, 0x5001, 0x5AB1, 0x5ABF, 0x8AB8, 0x8AB9, 0x8ABA, 0x8ABB, 0x8ABC, 0x8ABD, 0x8ABF,
      0x9AB1, 0xEA00, 0xEA9F, 0xEAA0, 0xFA00, 0xFA08, 0xFA1F, 0xFA30, 0xFA75, 0xFA85, 0xFAFF] : List Word).all
      (fun w => decide (decode w = .error (.noMatch w))) = true := by
  decide +kernel

theorem test_decode_byte_order_D4 :
    (decodeBytes [0x6A, 0x55] = .ok (.ldImm 0xA 0x55, [])) ∧ decodeBytes [0x6A] = .error .truncated := by decide

theorem test_encode_words_D1 :
    encode (.drw 0xA 0xB 5) = 0xDAB5 ∧ encode (.call 0xABC) = 0x2ABC ∧ encode (.shl 0xA 0xB) = 0x8ABE ∧
    encode (.ldToSt 0xA) = 0xFA18 := by decide

theorem test_table_word : decodeTableWord 16 0x8AB6 = some (.shr 0xA 0xB) ∧ decodeTableWord 16 0x5001 = none := by
  decide

/-! Control transfer (C) -/

theorem test_jp_C1 : after (holding 0x1ABC) (fun t => t.pc == 0xABC && !t.terminated) = true := by decide +kernel
theorem test_jp_self_C2 : after (holding 0x1200) (fun t => t.pc == 0x200 && t.terminated) = true := by decide +kernel
theorem test_jpV0_C6 : after (withV [(0, 0xFF)] (holding 0xBFFF)) (fun t => t.pc == 0x10FE) = true := by decide +kernel
theorem test_jpV0_self_C7 : after (holding 0xB200) (fun t => t.pc == 0x200 && !t.terminated) = true := by
  decide +kernel
theorem test_call_C13 : after (holdingAt 0xFFE 0x2300)
    (fun t => t.ram.readBytes 0 2 == [0x10, 0x00] && t.sp == 1 && t.pc == 0x300) = true := by decide +kernel
theorem test_call_overflow_C12 : faults ((holding 0x2ABC).setSp 16) 4 0 = true := by decide +kernel
theorem test_ret_C9 : after (withRam 0 [0x0A, 0xBC] ((holding 0x00EE).setSp 1))
    (fun t => t.sp == 0 && t.pc == 0xABC && t.ram.readBytes 0 2 == [0x0A, 0xBC]) = true := by decide +kernel
theorem test_ret_underflow_C10 : faults (holding 0x00EE) 5 0 = true := by decide +kernel

/-! Fetch and decode faults -/

theorem test_fetch_past_ram_C15 : faults (State.reset.setPc 0x1000) 2 0x1000 = true := by decide +kernel
theorem test_fetch_odd_C16 : faults (State.reset.setPc 0x0FFF) 6 0x0FFF = true := by decide +kernel
theorem test_fetch_odd_past_ram_C17 : faults (State.reset.setPc 0x1001) 6 0x1001 = true := by decide +kernel
theorem test_decode_fault_S2 : faults (holding 0x5001) 1 0x5001 = true := by decide +kernel
theorem test_last_word_C14 : after (holdingAt 0xFFE 0x6A55) (fun t => t.getV 0xA == 0x55 && t.pc == 0x1000) = true := by
  decide +kernel

/-! Skips (K) -/

theorem test_seImm_K1 : after (withV [(0xA, 0x55)] (holding 0x3A55)) (fun t => t.pc == 0x204) = true := by
  decide +kernel
theorem test_seImm_past_ram_K11 : after (withV [(0xA, 0x55)] (holdingAt 0xFFC 0x3A55)) (fun t => t.pc == 0x1000) = true := by
  decide +kernel
theorem test_sneImm_K3 : after (withV [(0xA, 0x55)] (holding 0x4A55)) (fun t => t.pc == 0x202) = true := by
  decide +kernel
theorem test_sneImm_K4 : after (withV [(0xA, 0x54)] (holding 0x4A55)) (fun t => t.pc == 0x204) = true := by
  decide +kernel
theorem test_seReg_K5 : after (withV [(0xA, 7), (0xB, 7)] (holding 0x5AB0)) (fun t => t.pc == 0x204) = true := by
  decide +kernel
theorem test_seReg_K6 : after (withV [(0xA, 7), (0xB, 8)] (holding 0x5AB0)) (fun t => t.pc == 0x202) = true := by
  decide +kernel
theorem test_sneReg_K8 : after (withV [(0xA, 7), (0xB, 8)] (holding 0x9AB0)) (fun t => t.pc == 0x204) = true := by
  decide +kernel
theorem test_sneReg_K10 : after (withV [(0xA, 7)] (holding 0x9AA0)) (fun t => t.pc == 0x202) = true := by
  decide +kernel

/-! Register load, arithmetic, logic, shifts, random (A, S) -/

theorem test_ldImm_A1 : after (withV [(0xF, 0xEE)] (holding 0x6A55))
    (fun t => t.getV 0xA == 0x55 && t.getV vf == 0xEE && t.pc == 0x202) = true := by decide +kernel
theorem test_addImm_A2 : after (withV [(0xA, 0x01), (0xF, 0xEE)] (holding 0x7AFF))
    (fun t => t.getV 0xA == 0x00 && t.getV vf == 0xEE) = true := by decide +kernel
theorem test_ldReg_A5 : after (withV [(0xA, 0x01), (0xB, 0x99), (0xF, 0xEE)] (holding 0x8AB0))
    (fun t => t.getV 0xA == 0x99 && t.getV vf == 0xEE) = true := by decide +kernel
theorem test_orReg_A6 : after (withV [(0xA, 0xCC), (0xB, 0xAA), (0xF, 0xEE)] (holding 0x8AB1))
    (fun t => t.getV 0xA == 0xEE && t.getV vf == 0xEE) = true := by decide +kernel
theorem test_andReg_A7 : after (withV [(0xA, 0xCC), (0xB, 0xAA), (0xF, 0xEE)] (holding 0x8AB2))
    (fun t => t.getV 0xA == 0x88 && t.getV vf == 0xEE) = true := by decide +kernel
theorem test_xorReg_A8 : after (withV [(0xA, 0xCC), (0xB, 0xAA), (0xF, 0xEE)] (holding 0x8AB3))
    (fun t => t.getV 0xA == 0x66 && t.getV vf == 0xEE) = true := by decide +kernel
theorem test_addReg_S3 : after (withV [(0xA, 0xFF), (0xB, 0x02)] (holding 0x8AB4))
    (fun t => t.getV 0xA == 0x01 && t.getV vf == 0x01) = true := by decide +kernel
theorem test_addReg_flag_wins_A15 : after (withV [(0xF, 0xFF), (0xB, 0x02)] (holding 0x8FB4))
    (fun t => t.getV vf == 0x01) = true := by decide +kernel
theorem test_subReg_S6 : after (withV [(0xA, 0x03), (0xB, 0x05)] (holding 0x8AB5))
    (fun t => t.getV 0xA == 0xFE && t.getV vf == 0x00) = true := by decide +kernel
theorem test_subReg_equal_A18 : after (withV [(0xA, 0x05), (0xB, 0x05)] (holding 0x8AB5))
    (fun t => t.getV 0xA == 0x00 && t.getV vf == 0x00) = true := by decide +kernel
theorem test_subnReg_A25 : after (withV [(0xA, 0x03), (0xB, 0x05)] (holding 0x8AB7))
    (fun t => t.getV 0xA == 0x02 && t.getV vf == 0x01) = true := by decide +kernel
theorem test_subnReg_equal_A27 : after (withV [(0xA, 0x05), (0xB, 0x05)] (holding 0x8AB7))
    (fun t => t.getV 0xA == 0x00 && t.getV vf == 0x00) = true := by decide +kernel
theorem test_shr_A28 : after (withV [(0xA, 0x05), (0xB, 0x77)] (holding 0x8AB6))
    (fun t => t.getV 0xA == 0x02 && t.getV vf == 0x01 && t.getV 0xB == 0x77) = true := by decide +kernel
theorem test_shr_flag_wins_A33 : after (withV [(0xF, 0x02)] (holding 0x8FB6)) (fun t => t.getV vf == 0x00) = true := by
  decide +kernel
theorem test_shl_A34 : after (withV [(0xA, 0x81), (0xB, 0x77)] (holding 0x8ABE))
    (fun t => t.getV 0xA == 0x02 && t.getV vf == 0x01 && t.getV 0xB == 0x77) = true := by decide +kernel
theorem test_shl_flag_wins_A39 : after (withV [(0xF, 0x41)] (holding 0x8FBE)) (fun t => t.getV vf == 0x00) = true := by
  decide +kernel
/-- The mask 0x00 leaves 0x00 whatever byte is drawn; the test fixes no byte. -/
theorem test_rnd_A41 : ∃ t, exec (.rnd 0xA 0x00) State.reset = .next t ∧ t.getV 0xA = 0 ∧ t.pc = 0x202 :=
  ⟨_, rfl, by simp, rfl⟩

/-! Index register and memory (M) -/

theorem test_ldI_M1 : after (holding 0xA123) (fun t => t.i == 0x123 && t.pc == 0x202) = true := by decide +kernel
theorem test_addI_M2 : after (withV [(5, 0x01), (0xF, 0xEE)] ((holding 0xF51E).setI 0xFFF))
    (fun t => t.i == 0x1000 && t.getV vf == 0xEE && t.err == 0) = true := by decide +kernel
theorem test_addI_wraps_M3 : after (withV [(5, 0x01)] ((holding 0xF51E).setI 0xFFFF)) (fun t => t.i == 0) = true := by
  decide +kernel
theorem test_ldFont_M6 : after (withV [(5, 0x1A)] (holding 0xF529)) (fun t => t.i == 0x132) = true := by decide +kernel
theorem test_ldFont_M7 : after (withV [(5, 0xFF)] (holding 0xF529)) (fun t => t.i == 0x14B) = true := by decide +kernel
theorem test_ldBcd_M13 : after (withV [(5, 0x9D)] ((holding 0xF533).setI 0xFFD))
    (fun t => t.ram.readBytes 0xFFD 3 == [1, 5, 7] && t.pc == 0x202 && t.i == 0xFFD) = true := by decide +kernel
theorem test_ldBcd_fault_M14 : faults (withV [(5, 0x9D)] ((holding 0xF533).setI 0xFFE)) 2 0xFFE = true := by
  decide +kernel
theorem test_storeRegs_M16 : after (withV [(0, 0x11), (1, 0x22), (2, 0x33), (3, 0x44)] ((holding 0xF255).setI 0x300))
    (fun t => t.ram.readBytes 0x300 4 == [0x11, 0x22, 0x33, 0x00] && t.i == 0x300) = true := by decide +kernel
theorem test_storeRegs_fault_M18 : faults (withV [(0, 0x01), (0xF, 0x0F)] ((holding 0xFF55).setI 0xFF1)) 2 0xFF1 = true := by
  decide +kernel
theorem test_loadRegs_M21 : after (withV [(3, 0x99)] (withRam 0x300 [0x11, 0x22, 0x33, 0x44] ((holding 0xF265).setI 0x300)))
    (fun t => t.getV 0 == 0x11 && t.getV 1 == 0x22 && t.getV 2 == 0x33 && t.getV 3 == 0x99 && t.i == 0x300) = true := by
  decide +kernel
theorem test_loadRegs_fault_M24 : faults ((holding 0xF165).setI 0xFFF) 2 0xFFF = true := by decide +kernel

/-! Display (V) -/

theorem test_cls_V1 : after (withV [(0xF, 0xEE)] (withVram 0 0xFF (withVram 255 0x01 (holding 0x00E0))))
    (fun t => t.vram == [] && t.dirty && t.getV vf == 0xEE && t.pc == 0x202) = true := by decide +kernel
theorem test_drw_wraps_V9 : after (withV [(0xB, 0x1E)] (withRam 0x300 [0x80, 0x40, 0x20, 0x10] ((holding 0xDAB4).setI 0x300)))
    (fun t => t.vram == [(0, 0x20), (8, 0x10), (240, 0x80), (248, 0x40)] && t.getV vf == 0 && t.dirty) = true := by
  decide +kernel
theorem test_drw_collision_old_VF_V18_V16 :
    (after (withV [(0xF, 0x08)] (withRam 0x300 [0xFF] ((holding 0xDFA1).setI 0x300)))
      (fun t => t.vram == [(1, 0xFF)] && t.getV vf == 0) &&
    after (withVram 0 0x80 (withRam 0x300 [0xC0] ((holding 0xDAB1).setI 0x300)))
      (fun t => t.vram == [(0, 0x40)] && t.getV vf == 1)) = true := by decide +kernel

/-! Key stubs, timers, host tick (T) -/

theorem test_skp_T1 : after (withV [(0xA, 5)] (holding 0xEA9E)) (fun t => t.pc == 0x202) = true := by decide +kernel
theorem test_sknp_T2 : after (withV [(0xA, 5)] (holding 0xEAA1)) (fun t => t.pc == 0x202) = true := by decide +kernel
theorem test_ldKey_T3 : after (withV [(0xA, 0x77)] (holding 0xFA0A)) (fun t => t.getV 0xA == 0 && t.pc == 0x202) = true := by
  decide +kernel
theorem test_ldFromDt_T4 : after ((holding 0xFA07).setDt 0x3C) (fun t => t.getV 0xA == 0x3C && t.dt == 0x3C) = true := by
  decide +kernel
theorem test_ldToDt_T5 : after (withV [(0xA, 0x3C)] (holding 0xFA15)) (fun t => t.dt == 0x3C && t.st == 0) = true := by
  decide +kernel
theorem test_ldToSt_T6 : after (withV [(0xA, 0x3C)] (holding 0xFA18)) (fun t => t.st == 0x3C && t.dt == 0) = true := by
  decide +kernel
theorem test_timerTick_T7 : (((State.reset.setDt 2).setSt 0).timerTick == (State.reset.setDt 1).setSt 0) = true := by
  decide

/-! Host actions (H) -/

theorem test_run_zero_H4 : (run 0 (holding 0x1200)).1 = .stepBound := by decide
theorem test_run_one_H5 : (run 1 (holding 0x1200)).1 = .halted := by decide +kernel

/-! ## Witnesses: a state and operands that meet all hypotheses of each statement -/

/-- The machine's invariant, of a state that has not ended and stands in no fault. -/
theorem inv_of_running {s : State} (hr : s.running) (hp : s.params.wf = true) (hm : s.ram.wf = true)
    (hv : s.vram.wf = true) (hs : s.sp.toNat ≤ s.params.stackDepth) (hi : s.errInfo = 0) : s.Inv where
  params_wf := hp
  ram_wf := hm
  vram_wf := hv
  sp_le := hs
  code_le := by rw [hr.2]; decide
  info_zero := fun _ => hi
  one_end := fun h => absurd (hr.1.symm.trans h) (by decide)
  self_jump := fun h => absurd (hr.1.symm.trans h) (by decide)

theorem witness_EncodeOfDecodeIsTheWord : decode 0xDFFF = .ok (.drw 0xF 0xF 0xF) := by decide

/-- The last fetchable address, zeros there. -/
theorem witness_MaskAndMatchAgreeWithTheNibblePattern :
    (State.reset.setPc 0xFFE).running ∧ (State.reset.setPc 0xFFE).fetchable ∧
    definitionTable.find? (fun r =>
      (State.reset.setPc 0xFFE).ram.readWord (State.reset.setPc 0xFFE).pc.toNat &&& r.mask == r.bits) = none := by
  refine ⟨⟨rfl, rfl⟩, ⟨by decide, by decide⟩, ?_⟩
  exact Option.isNone_iff_eq_none.mp (by decide +kernel)

theorem witness_NoWordMatchesTwoEntries : definitionTable.reverse.Perm definitionTable := List.reverse_perm _

/-- The last word of RAM runs. -/
theorem witness_StepRunsTheDecodedInstruction :
    (holdingAt 0xFFE 0x6A55).running ∧ (holdingAt 0xFFE 0x6A55).fetchable ∧
    decode ((holdingAt 0xFFE 0x6A55).ram.readWord (holdingAt 0xFFE 0x6A55).pc.toNat) = .ok (.ldImm 0xA 0x55) :=
  ⟨⟨rfl, rfl⟩, ⟨by decide, by decide⟩, by decide +kernel⟩

/-- One state for each clause: `pc` odd on both sides of the end of RAM, even at the end, and at the last word with an
illegal and a legal word. -/
theorem witness_StepFaultsInOrder :
    ((State.reset.setPc 0xFFF).running ∧ (State.reset.setPc 0xFFF).pc.getLsbD 0 = true) ∧
    ((State.reset.setPc 0x1001).running ∧ (State.reset.setPc 0x1001).pc.getLsbD 0 = true) ∧
    ((State.reset.setPc 0x1000).running ∧ (State.reset.setPc 0x1000).pc.getLsbD 0 = false ∧
      0x1000 ≤ (State.reset.setPc 0x1000).pc.toNat) ∧
    ((State.reset.setPc 0xFFE).running ∧ (State.reset.setPc 0xFFE).pc.getLsbD 0 = false ∧
      (State.reset.setPc 0xFFE).pc.toNat < 0x1000 ∧ decode 0x0000 = .error (.noMatch 0x0000) ∧
      (0x0000 : Word) = (State.reset.setPc 0xFFE).ram.read 0xFFE ++ (State.reset.setPc 0xFFE).ram.read 0xFFF) ∧
    ((holdingAt 0xFFE 0x6A55).running ∧ decode 0x6A55 = .ok (.ldImm 0xA 0x55) ∧
      (0x6A55 : Word) = (holdingAt 0xFFE 0x6A55).ram.read 0xFFE ++ (holdingAt 0xFFE 0x6A55).ram.read 0xFFF) :=
  ⟨⟨⟨rfl, rfl⟩, by decide⟩, ⟨⟨rfl, rfl⟩, by decide⟩, ⟨⟨rfl, rfl⟩, by decide, by decide⟩,
    ⟨⟨rfl, rfl⟩, by decide, by decide, by decide, by decide⟩, ⟨rfl, rfl⟩, by decide, by decide +kernel⟩

theorem witness_NoStepOnceTheRunIsOver :
    (State.reset.setTerminated true).halted ∧ (State.reset.raise .decodeError 0x5001).faulted :=
  ⟨⟨rfl, rfl⟩, by unfold State.faulted; decide⟩

theorem witness_EveryEnabledStepCompletes : State.reset.running := ⟨rfl, rfl⟩

/-- One state for each of the three results. -/
theorem witness_HostStepHasThreeResults :
    (hostStep (holding 0x6A55)).1 = .stepped ∧ (hostStep (holding 0x5001)).1 = .fault ∧
    (hostStep (State.reset.setTerminated true)).1 = .notEnabled := by decide +kernel

/-- A machine that has taken `DecodeError(0x0000)` at reset, as a session with its invariant, and a Step in it. -/
theorem witness_FaultsArePreciseAndSticky :
    (∃ t, step State.reset = .next t ∧ t.faulted) ∧
    (∃ h h' : Session, h.Inv ∧ h.machine.faulted ∧ (∀ ramInit, Action.step ≠ .reset ramInit) ∧
      perform .step h = .next h') := by
  refine ⟨⟨State.reset.raise .decodeError 0, step_of_after (by decide +kernel), by unfold State.faulted; decide⟩,
    { machine := State.reset.raise .decodeError 0, mayLoad := false }, _, ⟨?_, by simp⟩,
    by unfold State.faulted; decide, by simp, rfl⟩
  exact { params_wf := by decide, ram_wf := rfl, vram_wf := rfl, sp_le := by decide, code_le := by decide,
          info_zero := by decide, one_end := by decide, self_jump := by intro h; cases h }

/-- Each of the six in a state where it faults. -/
theorem witness_OnlySixInstructionsFault :
    (∃ t, exec (.call 0x300) (State.reset.setSp 16) = .next t ∧ t.err ≠ 0) ∧
    (∃ t, exec .ret State.reset = .next t ∧ t.err ≠ 0) ∧
    (∃ t, exec (.drw 0 1 1) (State.reset.setI 0xFFF) = .next t ∧ t.err ≠ 0) ∧
    (∃ t, exec (.ldBcd 0) (State.reset.setI 0xFFE) = .next t ∧ t.err ≠ 0) ∧
    (∃ t, exec (.storeRegs 0) (State.reset.setI 0x1000) = .next t ∧ t.err ≠ 0) ∧
    (∃ t, exec (.loadRegs 0xF) (State.reset.setI 0xFF1) = .next t ∧ t.err ≠ 0) :=
  ⟨⟨_, rfl, by decide⟩, ⟨_, rfl, by decide⟩, ⟨_, rfl, by decide⟩, ⟨_, rfl, by decide⟩, ⟨_, rfl, by decide⟩,
    ⟨_, rfl, by decide⟩⟩

/-- Both sides of each bound. -/
theorem witness_MemoryBoundsErrorSites :
    (∃ t, step (State.reset.setPc 0x1000) = .next t ∧ t.err = 2) ∧
    (∃ t, exec (.drw 0 1 1) (State.reset.setI 0xFFF) = .next t ∧ t.err = 2) ∧
    (∃ t, exec (.drw 0 1 0) (State.reset.setI 0xFFF) = .next t ∧ t.err = 0) ∧
    (∃ t, exec (.ldBcd 0) (State.reset.setI 0xFFD) = .next t ∧ t.err = 0) ∧
    (∃ t, exec (.storeRegs 0xF) (State.reset.setI 0xFF0) = .next t ∧ t.err = 0) ∧
    (∃ t, exec (.loadRegs 0) (State.reset.setI 0xFFF) = .next t ∧ t.err = 0) ∧
    (∃ t, exec .ret State.reset = .next t) ∧ (∃ t, exec (.call 0) State.reset = .next t) :=
  ⟨⟨(State.reset.setPc 0x1000).raise .memoryBounds 0x1000, step_of_after (by decide +kernel), rfl⟩, ⟨_, rfl, rfl⟩, ⟨_, rfl, rfl⟩,
    ⟨_, rfl, rfl⟩, ⟨_, rfl, rfl⟩, ⟨_, rfl, rfl⟩, ⟨_, rfl⟩, ⟨_, rfl⟩⟩

theorem witness_JumpGoesToItsTargetAndHaltsOnItself :
    (∀ mmm, Instr.jpV0 0x200 ≠ .jp mmm) ∧ ∃ t, exec (.jpV0 0x200) State.reset = .next t :=
  ⟨by simp, _, rfl⟩

/-- A full stack; its last free entry, of 16 entries and of the deepest stack. -/
theorem witness_CallPushesTheReturnAddress :
    (State.reset.setSp 16).sp.toNat = (State.reset.setSp 16).params.stackDepth ∧
    ((State.reset.setSp 15).params.wf = true ∧ (State.reset.setSp 15).ram.wf = true ∧
      (State.reset.setSp 15).sp.toNat < (State.reset.setSp 15).params.stackDepth) ∧
    ((launch ⟨0, 128⟩ [] 0).params.wf = true ∧ (launch ⟨0, 128⟩ [] 0).ram.wf = true ∧
      ((launch ⟨0, 128⟩ [] 0).setSp 127).sp.toNat < (launch ⟨0, 128⟩ [] 0).params.stackDepth) := by decide

theorem witness_ReturnPopsTheStackInRam :
    State.reset.sp = 0 ∧ (State.reset.setSp 1).sp ≠ 0 ∧ (State.reset.setSp 16).sp ≠ 0 := by decide

theorem witness_ReturnMatchesItsCall :
    ∃ t, State.reset.params.wf = true ∧ State.reset.ram.wf = true ∧
      State.reset.sp.toNat < State.reset.params.stackDepth ∧ exec (.call 0x300) State.reset = .next t ∧
      t.params = t.params ∧ t.sp = t.sp := ⟨_, by decide, rfl, by decide, rfl, rfl, rfl⟩

theorem witness_SkipsStepOverTheNextInstruction : (0xF : Nibble) ≠ 0 ∧ (0x1 : Nibble) ≠ 0 := by decide

/-- A destination that is not the flag register, for ADD, SUB, SUBN, SHR, SHL. -/
theorem witness_AddReportsTheCarryOut : (0xE : RegIx) ≠ vf := by decide
theorem witness_SubtractionsReportNoBorrow : (0x0 : RegIx) ≠ vf := by decide
theorem witness_ShiftsReportTheBitShiftedOut : (0xE : RegIx) ≠ vf := by decide

theorem witness_RandomStaysUnderTheMask : (0x00 : Byte) = 0 := rfl

theorem witness_EachRandomTakesTheNextDraw :
    (∃ t, exec (.rnd 0xF 0xFF) State.reset = .next t) ∧
    ((∀ x kk, Instr.cls ≠ .rnd x kk) ∧ ∃ t, exec .cls State.reset = .next t) := ⟨⟨_, rfl⟩, by simp, _, rfl⟩

theorem witness_BcdStoresThreeDigits :
    (0x1000 < (State.reset.setI 0xFFE).i.toNat + 3) ∧
    ((State.reset.setI 0xFFD).ram.wf = true ∧ (State.reset.setI 0xFFD).i.toNat + 3 ≤ 0x1000) := by decide

theorem witness_BlockStoreCopiesRegistersToRam :
    (0x1000 < (State.reset.setI 0xFF1).i.toNat + (0xF : RegIx).toNat + 1) ∧
    ((State.reset.setI 0xFF0).ram.wf = true ∧ (State.reset.setI 0xFF0).i.toNat + (0xF : RegIx).toNat + 1 ≤ 0x1000) ∧
    (0xF : RegIx).toNat ≤ (0xF : RegIx).toNat := by decide

theorem witness_BlockLoadCopiesRamToRegisters :
    (0x1000 < (State.reset.setI 0x1000).i.toNat + (0 : RegIx).toNat + 1) ∧
    (State.reset.setI 0xFFF).i.toNat + (0 : RegIx).toNat + 1 ≤ 0x1000 ∧
    (0 : RegIx).toNat ≤ (0 : RegIx).toNat ∧ (0 : RegIx).toNat < (1 : RegIx).toNat := by decide

theorem witness_BlockTransfersRoundTrip :
    ∃ t u : State, (State.reset.setI 0xFF0).ram.wf = true ∧
      (State.reset.setI 0xFF0).i.toNat + (0xF : RegIx).toNat + 1 ≤ 0x1000 ∧
      exec (.storeRegs 0xF) (State.reset.setI 0xFF0) = .next t ∧ u.ram = t.ram ∧ u.i = t.i ∧ u.getV 3 ≠ t.getV 3 :=
  ⟨_, (State.advance (State.reset.setI 0xFF0)).setV 3 0xFF, by decide, by decide, rfl, by decide +kernel, rfl,
    by decide⟩

/-- `F155` at 0xFFC with `I` at the last word of RAM: the stored word, 0x00E0, is fetched next. -/
def storing : State := withV [(0, 0x00), (1, 0xE0)] ((holdingAt 0xFFC 0xF155).setI 0xFFE)

theorem witness_StoredWordIsFetchedNext :
    storing.ram.wf = true ∧ storing.running ∧ storing.fetchable ∧
    decode (storing.ram.readWord storing.pc.toNat) = .ok (.storeRegs 1) ∧ 1 ≤ (1 : RegIx).toNat ∧
    storing.i = storing.pc + 2 ∧ storing.i.toNat + (1 : RegIx).toNat + 1 ≤ 0x1000 ∧
    (∃ t, step storing = .next t) ∧ decode (storing.getV 0 ++ storing.getV 1) = .ok .cls := by
  have h : ∃ t, step storing = .next t := by
    exact ⟨(storing.setRam (storing.ram.writeBytes 0xFFE [0x00, 0xE0])).setPc 0xFFE,
      step_of_after (by decide +kernel)⟩
  exact ⟨by decide +kernel, ⟨by decide +kernel, by decide +kernel⟩, ⟨by decide +kernel, by decide +kernel⟩,
    by decide +kernel, by decide, by decide +kernel, by decide +kernel, h, by decide +kernel⟩

/-- A sprite row 0x81 at 0xFFE, the highest a draw of one row reads. `V[0]` is the largest column that does not snap,
`V[1]` the last row. -/
def drawing (vx : Byte) : State := withV [(0, vx), (1, 31)] (withRam 0xFFE [0x81] (State.reset.setI 0xFFE))

/-- Both sides of the bound; at columns 56 and 57 a covered pixel, unlit and lit; a pixel that is not covered. -/
theorem witness_DrawTogglesTheCoveredPixels :
    (0x1000 ≤ (State.reset.setI 0xFFF).i.toNat + (1 : Nibble).toNat) ∧
    ((drawing 56).vram.wf = true ∧ (drawing 56).i.toNat + (1 : Nibble).toNat < 0x1000) ∧
    spriteCovers 0 1 1 (drawing 56) 63 31 ∧ spriteCovers 0 1 1 (drawing 57) 0 31 ∧
    ¬ spriteCovers 0 1 1 (drawing 57) 63 31 ∧
    (spriteCovers 0 1 1 (withVram 248 0x80 (drawing 57)) 0 31 ∧
      (withVram 248 0x80 (drawing 57)).vram.pixel 0 31 = true) ∧
    (∀ cx cy : Nat, (drawing 56).vram.pixel cx cy = false) := by
  refine ⟨by decide, by decide +kernel, ⟨0, 7, by decide +kernel⟩, ⟨0, 0, by decide +kernel⟩, ?_,
    ⟨⟨0, 0, by decide +kernel⟩, by decide +kernel⟩, ?_⟩
  · rintro ⟨r, c, _, hc, hx, _⟩
    have h0 : spriteColumn ((drawing 57).getV 0) = 0 := by decide +kernel
    omega
  · intro cx cy
    have h : (drawing 56).vram = [] := by decide +kernel
    rw [h]
    simp [Framebuffer.pixel]

theorem witness_DrawWithoutRowsOnlyClearsTheFlag :
    (State.reset.setI 0xFFF).i.toNat < 0x1000 ∧ 0x1000 ≤ (State.reset.setI 0x1000).i.toNat := by decide

theorem witness_BlockRealisationEqualsPixelLoop :
    ({ vram := [(7, 0x0F)], coll := false } : Canvas).vram.wf = true ∧ 56 ≤ 56 ∧
    drawRowsBlock [0xC3] 55 0 { vram := [(7, 0x0F)], coll := false } =
      drawRows [0xC3] 55 0 { vram := [(7, 0x0F)], coll := false } := by decide +kernel

/-- The same sprite drawn again from the state the first draw left; its pixels were unlit before. -/
theorem witness_DrawingTwiceRestoresTheDisplay :
    ∃ t w : State, (drawing 56).vram.wf = true ∧ (drawing 56).i.toNat + (1 : Nibble).toNat < 0x1000 ∧
      exec (.drw 0 1 1) (drawing 56) = .next t ∧ t.i = (drawing 56).i ∧ t.getV 0 = (drawing 56).getV 0 ∧
      t.getV 1 = (drawing 56).getV 1 ∧ sameRam (drawing 56) t ∧ exec (.drw 0 1 1) t = .next w ∧
      spriteCovers 0 1 1 (drawing 56) 63 31 ∧ (drawing 56).vram.pixel 63 31 = false :=
  ⟨_, _, by decide +kernel, by decide +kernel, rfl, rfl, by decide +kernel, by decide +kernel, fun _ => rfl, rfl,
    ⟨0, 7, by decide +kernel⟩, by decide +kernel⟩

theorem witness_PixelIsOneBitOfItsByte :
    Framebuffer.wf [(255, 0x01)] = true ∧ 63 < 64 ∧ 31 < 32 ∧ (0 : Nat) < 8 ∧
    ¬ ((254 : Nat) = 8 * 31 + 63 / 8 ∧ (0 : Nat) = 7 - 63 % 8) := by decide

theorem witness_PcAfterEveryInstruction :
    (∃ t, exec .ret State.reset = .next t ∧ t.err ≠ 0) ∧ (∃ t, exec (.jpV0 0xFFF) State.reset = .next t ∧ t.err = 0) ∧
    (State.reset.setPc 0xFFE).fetchable :=
  ⟨⟨_, rfl, by decide⟩, ⟨_, rfl, rfl⟩, by decide, by decide⟩

theorem witness_OnlySixInstructionsWriteTheFlag :
    (∃ t, writesFlag (.addReg 0xF 0xF) = true ∧ exec (.addReg 0xF 0xF) State.reset = .next t ∧ t.err = 0) ∧
    (∃ t, writesFlag (.loadRegs 0xE) = false ∧ fieldXOf (.loadRegs 0xE) ≠ some vf ∧
      exec (.loadRegs 0xE) State.reset = .next t) :=
  ⟨⟨_, rfl, rfl, rfl⟩, ⟨_, rfl, by decide, rfl⟩⟩

/-- An instruction that changes each column. -/
theorem witness_WriteColumnsOfTheAccessMatrix :
    (∃ t, exec (.ldI 0xFFF) State.reset = .next t ∧ t.i ≠ State.reset.i) ∧
    (∃ t, exec (.ldToDt 0) (State.reset.setV 0 1) = .next t ∧ t.dt ≠ (State.reset.setV 0 1).dt) ∧
    (∃ t, exec (.ldToSt 0) (State.reset.setV 0 1) = .next t ∧ t.st ≠ (State.reset.setV 0 1).st) ∧
    (∃ t, exec (.call 0x300) State.reset = .next t ∧ t.sp ≠ State.reset.sp ∧ t.ram ≠ State.reset.ram) ∧
    (∃ t, exec (.drw 0 0 1) (State.reset.setI 0x100) = .next t ∧ t.vram ≠ (State.reset.setI 0x100).vram ∧
      t.dirty ≠ (State.reset.setI 0x100).dirty) :=
  ⟨⟨_, rfl, by decide⟩, ⟨_, rfl, by decide⟩, ⟨_, rfl, by decide⟩, ⟨_, rfl, by decide +kernel⟩,
    ⟨_, rfl, by decide +kernel⟩⟩

theorem witness_TerminatedIsSetByASelfJumpOnly :
    (∃ t, step (holding 0x1200) = .next t ∧ t.terminated = true) ∧
    (∃ h h' : Session, h.machine.terminated = true ∧ (∀ ramInit, Action.timerTick ≠ .reset ramInit) ∧
      perform .timerTick h = .next h') :=
  ⟨⟨(holding 0x1200).setTerminated true, step_of_after (by decide +kernel), rfl⟩,
    { machine := State.reset.setTerminated true, mayLoad := false }, _, rfl, by simp, rfl⟩

theorem witness_SoundTimerAndDirtyDoNotInfluenceTheProgram : ∃ t, step State.reset = .next t :=
  ⟨State.reset.raise .decodeError 0, step_of_after (by decide +kernel)⟩

/-- Two canonical stores, built in two orders, that read alike everywhere. -/
theorem witness_CanonicalStoresAreDeterminedByTheirBytes :
    Memory.wf (Memory.write (Memory.write [] 0xFFF 1) 0x000 2) = true ∧
    Memory.wf (Memory.write (Memory.write [] 0x000 2) 0xFFF 1) = true ∧
    (∀ a, a < 0x1000 → Memory.read (Memory.write (Memory.write [] 0xFFF 1) 0x000 2) a =
      Memory.read (Memory.write (Memory.write [] 0x000 2) 0xFFF 1) a) ∧
    Framebuffer.wf (Framebuffer.setPixel [] 63 31 true) = true := by
  have h : Memory.write (Memory.write [] 0xFFF 1) 0x000 2 = Memory.write (Memory.write [] 0x000 2) 0xFFF 1 := by
    decide
  exact ⟨by decide, by decide, fun a _ => by rw [h], by decide⟩

/-- The largest program, and the smallest. -/
theorem witness_StateAfterResetAndLoad :
    (List.replicate 3584 (0xFF : Byte)).length ≤ 3584 ∧ ([] : List Byte).length ≤ 3584 := by
  rw [List.length_replicate]; decide

theorem witness_LoadCopiesTheProgramOrFails :
    ({ machine := State.reset, mayLoad := false } : Session).mayLoad = false ∧
    (({ machine := State.reset, mayLoad := true } : Session).mayLoad = true ∧
      3584 < (List.replicate 3585 (0xFF : Byte)).length) ∧
    ((List.replicate 3584 (0xFF : Byte)).length ≤ 3584 ∧ State.reset.ram.wf = true) := by
  rw [List.length_replicate, List.length_replicate]; decide

theorem witness_FirstStepRunsTheFirstWordOfTheProgram :
    (List.replicate 3582 (0x00 : Byte)).length + 2 ≤ 3584 ∧ decode ((0x12 : Byte) ++ (0x00 : Byte)) = .ok (.jp 0x200) :=
  ⟨by rw [List.length_replicate], by decide⟩

/-- The three ends of a run. -/
theorem witness_RunContinuesWhereItsBudgetEnded :
    (run 0 (holding 0x1200)).1 = .stepBound ∧ (run 1 (holding 0x1200)).1 = .halted ∧
    (run 1 (holding 0x5001)).1 = .fault 1 0x5001 := by decide +kernel

/-- A state in the middle of a run: one entry on the stack, a word at `pc`. -/
theorem inv_holding : ((holding 0x6A55).setSp 1).Inv :=
  inv_of_running ⟨rfl, rfl⟩ (by decide) (by decide +kernel) rfl (by decide) rfl

theorem witness_StepKeepsTheInvariant :
    ((holding 0x6A55).setSp 1).Inv ∧ ∃ t, step ((holding 0x6A55).setSp 1) = .next t :=
  ⟨inv_holding, (((holding 0x6A55).setSp 1).setV 0xA 0x55).advance,
    step_of_after (by decide +kernel)⟩

/-- Legal launch parameters at the highest base, and a schedule of two moves from a session with the invariant. -/
theorem witness_EveryScheduleKeepsTheInvariant :
    Params.wf ⟨0xE0, 16⟩ = true ∧
    ∃ h h' : Session, h.Inv ∧ performAll [.timerTick, .dirtyAck] h = .next h' :=
  ⟨by decide, { machine := (holding 0x6A55).setSp 1, mayLoad := false }, _, ⟨inv_holding, by simp⟩, rfl⟩

end Sys2Proof.Machine
end

section
/-! Proofs about the state (10_state.md): the pixel mapping of R28, and the registers an instruction may write, of
which the flag `V[15]` (R11) is one. -/

namespace Sys2Proof.Machine

/-! One bit of VRAM (R28) -/

/-- What writing a pixel does to every bit of VRAM. -/
theorem getLsbD_read_setPixel {f : Framebuffer} (hf : f.wf = true) {cx cy : Nat} (hx : cx < 64) (hy : cy < 32)
    (b : Bool) (k : Nat) {j : Nat} (hj : j < 8) :
    ((f.setPixel cx cy b).read k).getLsbD j =
      if k = pixelByte cx cy ∧ j = pixelBit cx then b else (f.read k).getLsbD j := by
  have hbit : pixelBit cx < 8 := Nat.lt_succ_of_le (Nat.sub_le 7 _)
  rw [Framebuffer.setPixel, Framebuffer.read_write hf]
  by_cases hk : k = pixelByte cx cy
  · rw [if_pos ⟨hk, pixelByte_lt hx hy⟩, getLsbD_setBit _ hbit hj, hk]
    simp
  · simp [hk]

/-- Settles O39: the bit of a pixel after a write is the bit written, and any other bit of VRAM is as before, both by
`getLsbD_read_setPixel`. -/
theorem pixelIsOneBitOfItsByte : Obligations.PixelIsOneBitOfItsByte := by
  intro f cx cy b hf hx hy
  refine ⟨rfl, ?_, fun k j hj hother => ?_⟩
  · have hbit : 7 - cx % 8 < 8 := by omega
    exact (getLsbD_read_setPixel hf hx hy b _ hbit).trans (if_pos ⟨rfl, rfl⟩)
  · exact (getLsbD_read_setPixel hf hx hy b k hj).trans (if_neg hother)

/-! The registers after each shared operation -/

section
variable {s t t' : State} {r : RegIx}

/-- A meaning that checks first either takes its fault or completes (R165). -/
theorem trap_or_completion {c : Prop} [Decidable c] {k : ErrorKind} {info : Word}
    (h : (if c then trap k info s else .next t) = .next t') : c ∧ t' = s.raise k info ∨ ¬ c ∧ t' = t := by
  split at h
  · next hc => exact .inl ⟨hc, trap_next h⟩
  · next hc =>
    cases h
    exact .inr ⟨hc, rfl⟩

/-- An access at `I` keeps a register that its completion keeps. -/
theorem withDataRange_getV {n : Nat} (h : withDataRange n s t = .next t') (ht : t.getV r = s.getV r) :
    t'.getV r = s.getV r := by
  rcases withDataRange_next h with ⟨-, rfl⟩ | ⟨-, rfl⟩
  · exact ht
  · exact raise_getV _ _ _ _

theorem skipIf_getV {c : Bool} (h : skipIf c s = .next t) : t.getV r = s.getV r := by
  rw [skipIf_eq] at h
  cases h
  rfl

theorem writeReg_getV_ne {x : RegIx} {b : Byte} (h : writeReg x b s = .next t) (hr : r ≠ x) :
    t.getV r = s.getV r := by
  cases h
  exact getV_setV_ne s hr b

theorem writeResultThenFlag_getV_ne {x : RegIx} {b : Byte} {flag : Bool}
    (h : writeResultThenFlag x b flag s = .next t) (hx : r ≠ x) (hf : r ≠ vf) : t.getV r = s.getV r := by
  cases h
  exact (getV_setV_ne _ hf _).trans (getV_setV_ne s hx b)

/-- The flag is written over the result, so it stands in `V[15]` for `x = 0xF` too (R113). -/
theorem writeResultThenFlag_vf {x : RegIx} {b : Byte} {flag : Bool}
    (h : writeResultThenFlag x b flag s = .next t) : t.getV vf = flagByte flag := by
  cases h
  exact getV_setV_same _ vf _

/-- A load of `V[0]` to `V[x]` keeps the registers above `x` (R135). -/
theorem loadFrom_getV_above {x : RegIx} {bs : List Byte} (hlen : bs.length = x.toNat + 1) (hr : x < r) :
    (s.loadFrom 0 bs).getV r = s.getV r := by
  have hxr : x.toNat < r.toNat := hr
  have hout : ¬ (0 ≤ r.toNat ∧ r.toNat - 0 < bs.length) := by omega
  rw [loadFrom_getV s 0 bs (by omega) r, dif_neg hout]

end

/-! The registers an instruction may write -/

/-- The registers an instruction may write: its `x`, the flag of the six of R11, and `V[0]` to `V[x]` for the block
load (R135). -/
def mayWriteReg (r : RegIx) : Instr → Prop
  | .ldImm x _ | .addImm x _ | .rnd x _ => r = x
  | .ldReg x _ | .orReg x _ | .andReg x _ | .xorReg x _ => r = x
  | .ldFromDt x | .ldKey x => r = x
  | .addReg x _ | .subReg x _ | .shr x _ | .subnReg x _ | .shl x _ => r = x ∨ r = vf
  | .drw _ _ _ => r = vf
  | .loadRegs x => r ≤ x
  | _ => False

/-- Every other register is kept, whether the instruction completes or faults. -/
theorem exec_getV_of_not_mayWriteReg {i : Instr} {s t : State} {r : RegIx} (h : exec i s = .next t)
    (hr : ¬ mayWriteReg r i) : t.getV r = s.getV r := by
  cases i with
  | ldImm | addImm | ldReg | orReg | andReg | xorReg | ldFromDt | ldKey => exact writeReg_getV_ne h hr
  | addReg | subReg | shr | subnReg | shl =>
    obtain ⟨hx, hf⟩ := not_or.mp hr
    exact writeResultThenFlag_getV_ne h hx hf
  | rnd =>
    cases h
    exact getV_setV_ne s hr _
  | seImm | sneImm | seReg | sneReg => exact skipIf_getV h
  | drw =>
    rcases trap_or_completion h with ⟨-, rfl⟩ | ⟨-, rfl⟩
    · exact raise_getV _ _ _ _
    · exact getV_setV_ne _ hr _
  | loadRegs => exact withDataRange_getV h (loadFrom_getV_above (Memory.length_readBytes _ _ _) (BitVec.not_le.mp hr))
  | ldBcd | storeRegs => exact withDataRange_getV h rfl
  | call | ret => rcases trap_or_completion h with ⟨-, rfl⟩ | ⟨-, rfl⟩ <;> rfl
  | cls | jp | jpV0 | ldI | addI | ldFont | skp | sknp | ldToDt | ldToSt =>
    cases h
    rfl

/-! The flag register (R11) -/

/-- `V[15]` is written as a flag, or as the register the `x` field names: a block load reaches it with `x = 0xF`
only. -/
theorem writesFlag_or_fieldXOf_of_mayWriteReg_vf {i : Instr} (h : mayWriteReg vf i) :
    writesFlag i = true ∨ fieldXOf i = some vf := by
  cases i with
  | addReg | subReg | shr | subnReg | shl | drw => exact .inl rfl
  | ldImm | addImm | rnd | ldReg | orReg | andReg | xorReg | ldFromDt | ldKey => exact .inr (congrArg some h.symm)
  | loadRegs x =>
    have hx : x = vf := by
      have hle : vf ≤ x := h
      bv_omega
    exact .inr (congrArg some hx)
  | _ => exact h.elim

/-- Completed, each of the six leaves a flag byte in `V[15]`. -/
theorem exec_vf_eq_flagByte {i : Instr} {s t : State} (h : exec i s = .next t) (hf : writesFlag i = true)
    (herr : t.err = 0) : ∃ flag, t.getV vf = flagByte flag := by
  cases i with
  | addReg | subReg | shr | subnReg | shl => exact ⟨_, writeResultThenFlag_vf h⟩
  | drw =>
    rcases trap_or_completion h with ⟨-, rfl⟩ | ⟨-, rfl⟩
    · exact absurd herr (code_range .memoryBounds).1
    · exact ⟨_, getV_setV_same _ vf _⟩
  | _ => cases hf

/-- Settles O43: the six leave a flag byte, and any other instruction that may write `V[15]` names it by `x`. -/
theorem onlySixInstructionsWriteTheFlag : Obligations.OnlySixInstructionsWriteTheFlag := by
  intro i s t _ h
  refine ⟨fun hf herr => ?_, fun hf hx => exec_getV_of_not_mayWriteReg h fun hw => ?_⟩
  · obtain ⟨flag, hflag⟩ := exec_vf_eq_flagByte h hf herr
    rw [hflag]
    exact flagByte_range flag
  · rcases writesFlag_or_fieldXOf_of_mayWriteReg_vf hw with hflag | hfield
    · exact Bool.false_ne_true (hf.symm.trans hflag)
    · exact hx hfield

end Sys2Proof.Machine
end

section
/-! Proofs about the encoding (30_encoding.md): the definition table read one family at a time, and the opcode map in
prose of R68. -/

namespace Sys2Proof.Machine

/-! The definition table by top nibble -/

/-- The entries with top nibble `n`: one family of R68. -/
def family (n : Nibble) : List Row := definitionTable.filter (fun r => r.a == n)

/-- Whether an entry admits the nibbles B, C and D of a word. -/
def admitsBelowTop (r : Row) (w : Word) : Bool :=
  r.b.admits (nibB w) && r.c.admits (nibC w) && r.d.admits (nibD w)

/-- The answer of the first of the entries of one family that admits a word's nibbles below the top one. -/
def decodeIn : List Row → Word → Except Reject Instr
  | [], w => .error (.noMatch w)
  | r :: rows, w => if admitsBelowTop r w then .ok (r.build w) else decodeIn rows w

theorem decodeIn_eq_find? (rows : List Row) (w : Word) :
    decodeIn rows w =
      (rows.find? (fun r => admitsBelowTop r w)).elim (.error (.noMatch w)) (fun r => .ok (r.build w)) := by
  induction rows with
  | nil => rfl
  | cons r rows ih => by_cases h : admitsBelowTop r w <;> simp [decodeIn, h, ih]

/-- The scan of the whole table (R65) finds what the scan of the family of the word's top nibble finds. -/
theorem decode_eq_decodeIn_family (w : Word) : decode w = decodeIn (family (nibA w)) w := by
  have hadmits : (fun r : Row => r.admits w) = fun r => decide (r.a == nibA w ∧ admitsBelowTop r w) := by
    funext r
    simp [Row.admits, admitsBelowTop, Bool.and_assoc, Bool.beq_eq_decide_eq]
  rw [decodeIn_eq_find?, family, List.find?_filter, ← hadmits, decode]
  cases definitionTable.find? (fun r => r.admits w) <;> rfl

theorem decode_eq_decodeIn {w : Word} {n : Nat} {rows : List Row} (h : (nibA w).toNat = n)
    (hrows : family (BitVec.ofNat 4 n) = rows) : decode w = decodeIn rows w := by
  rw [decode_eq_decodeIn_family, ← hrows, ← h, BitVec.ofNat_toNat, BitVec.setWidth_eq]

/-! What an entry fixes below the top nibble -/

theorem nibC_nibD_eq_iff (w : Word) (c d : Nibble) : nibC w = c ∧ nibD w = d ↔ fieldKK w = (c ++ d : Byte) := by
  constructor
  · rintro ⟨rfl, rfl⟩
    exact fieldKK_nibbles w
  · intro h
    rw [fieldKK_nibbles] at h
    constructor
    · simpa only [BitVec.extractLsb'_append_eq_left] using congrArg (BitVec.extractLsb' 4 4) h
    · simpa only [BitVec.extractLsb'_append_eq_right] using congrArg (BitVec.extractLsb' 0 4) h

section
variable (m : String) (a b c d : Nibble) (bits mask : Word) (build : Word → Instr) (w : Word)

/-- The entries of families 5, 8 and 9 select by D. -/
@[simp] theorem admitsBelowTop_fixing_nibD :
    admitsBelowTop ⟨m, a, .regX, .regY, .fixed d, bits, mask, build⟩ w = decide (nibD w = d) := by
  simp [admitsBelowTop, Slot.admits, eq_comm, Bool.beq_eq_decide_eq]

/-- The entries of families E and F select by the low byte. -/
@[simp] theorem admitsBelowTop_fixing_byte :
    admitsBelowTop ⟨m, a, .regX, .fixed c, .fixed d, bits, mask, build⟩ w =
      decide (fieldKK w = (c ++ d : Byte)) := by
  simp [admitsBelowTop, Slot.admits, ← nibC_nibD_eq_iff, eq_comm (b := nibC w), eq_comm (b := nibD w),
    Bool.beq_eq_decide_eq]

/-- An entry without a placeholder, as the two of family 0, admits one word of its family. -/
theorem admitsBelowTop_fixing_word (hA : nibA w = a) :
    admitsBelowTop ⟨m, a, .fixed b, .fixed c, .fixed d, bits, mask, build⟩ w =
      decide (w = (a ++ b ++ c ++ d : Word)) := by
  have hword : (nibB w = b ∧ nibC w = c) ∧ nibD w = d ↔ w = (a ++ b ++ c ++ d : Word) := by
    constructor
    · rintro ⟨⟨rfl, rfl⟩, rfl⟩
      rw [← hA, nibbles_of_word]
    · rintro rfl
      simp
  simp [admitsBelowTop, Slot.admits, ← hword, eq_comm, Bool.beq_eq_decide_eq]

end

/-! Each family as R68 gives it -/

section
variable {w : Word}

/-- Families 1, 2, 3, 4, 6, 7, A, B, C and D: their one entry fixes the top nibble only, and takes all words. -/
theorem decode_of_open_family {n : Nat} {r : Row} (h : (nibA w).toNat = n)
    (hrow : family (BitVec.ofNat 4 n) = [r]) (hopen : admitsBelowTop r w = true) : decode w = .ok (r.build w) := by
  rw [decode_eq_decodeIn h hrow, decodeIn, if_pos hopen]

/-- Family 0: 00E0 and 00EE only. -/
theorem decode_eq_map_family0 (h : (nibA w).toNat = 0x0) : decode w = mapByTopNibble w := by
  have hA : nibA w = 0x0 := BitVec.eq_of_toNat_eq h
  rw [decode_eq_decodeIn (rows := rowsControl.take 2) h rfl, mapByTopNibble, h]
  simp [rowsControl, decodeIn, admitsBelowTop_fixing_word, hA]

/-- Family 5: D = 0. -/
theorem decode_eq_map_family5 (h : (nibA w).toNat = 0x5) : decode w = mapByTopNibble w := by
  rw [decode_eq_decodeIn (rows := [rowsControl[6]]) h rfl, mapByTopNibble, h]
  simp [rowsControl, decodeIn, fieldX, fieldY]

/-- Family 8: D selects. -/
theorem decode_eq_map_family8 (h : (nibA w).toNat = 0x8) : decode w = mapByTopNibble w := by
  rw [decode_eq_decodeIn (rows := rowsFamily8) h rfl]
  simp only [mapByTopNibble, h]
  split <;> simp_all [rowsFamily8, decodeIn, fieldX, fieldY, ← BitVec.toNat_inj]

/-- Family 9: D = 0. -/
theorem decode_eq_map_family9 (h : (nibA w).toNat = 0x9) : decode w = mapByTopNibble w := by
  rw [decode_eq_decodeIn (rows := [rowsNineToE[0]]) h rfl, mapByTopNibble, h]
  simp [rowsNineToE, decodeIn, fieldX, fieldY]

/-- Family E: the low byte selects. -/
theorem decode_eq_map_familyE (h : (nibA w).toNat = 0xE) : decode w = mapByTopNibble w := by
  rw [decode_eq_decodeIn (rows := rowsNineToE.drop 5) h rfl, mapByTopNibble, h]
  simp [rowsNineToE, decodeIn, fieldX]

/-- Family F: the low byte selects. -/
theorem decode_eq_map_familyF (h : (nibA w).toNat = 0xF) : decode w = mapByTopNibble w := by
  rw [decode_eq_decodeIn (rows := rowsFamilyF) h rfl]
  simp only [mapByTopNibble, h]
  split <;> simp_all [rowsFamilyF, decodeIn, fieldX, ← BitVec.toNat_inj]

end

/-- Settles O5, one family at a time: the six above, and ten whose single entry takes all words. -/
theorem decoderIsTheOpcodeMapByTopNibble : Obligations.DecoderIsTheOpcodeMapByTopNibble := by
  intro w
  match h : (nibA w).toNat, (nibA w).isLt with
  | 0x0, _ => exact decode_eq_map_family0 h
  | 0x5, _ => exact decode_eq_map_family5 h
  | 0x8, _ => exact decode_eq_map_family8 h
  | 0x9, _ => exact decode_eq_map_family9 h
  | 0xE, _ => exact decode_eq_map_familyE h
  | 0xF, _ => exact decode_eq_map_familyF h
  | 0x1, _ | 0x2, _ | 0x3, _ | 0x4, _ | 0x6, _ | 0x7, _ | 0xA, _ | 0xB, _ | 0xC, _ | 0xD, _ =>
    rw [decode_of_open_family h rfl rfl, mapByTopNibble, h]
    rfl
  | n + 16, hlt => omega

end Sys2Proof.Machine
end

section
/-! Proofs about the timer instructions (45_keys_timers.md): what a register write, and a write of a timer, leaves
unchanged. -/

namespace Sys2Proof.Machine

/-! Frames -/

/-- Everything but `pc` and the timers. -/
def sameButTimers (s t : State) : Prop :=
  sameRegsBut [] s t ∧ t.i = s.i ∧ t.sp = s.sp ∧ sameRam s t ∧ sameDisplay s t ∧ sameStatus s t ∧ sameModel s t

theorem sameButTimers_setDt_advance (s : State) (b : Byte) : sameButTimers s (s.setDt b).advance :=
  ⟨fun _ _ => rfl, rfl, rfl, fun _ => rfl, ⟨rfl, rfl⟩, ⟨rfl, rfl, rfl⟩, ⟨rfl, rfl⟩⟩

theorem sameButTimers_setSt_advance (s : State) (b : Byte) : sameButTimers s (s.setSt b).advance :=
  ⟨fun _ _ => rfl, rfl, rfl, fun _ => rfl, ⟨rfl, rfl⟩, ⟨rfl, rfl, rfl⟩, ⟨rfl, rfl⟩⟩

/-- What the instructions that only write `V[x]` do (R110 to R112, R114 to R116, R152, R153). -/
theorem writeReg_effect (x : RegIx) (b : Byte) (s : State) :
    ∃ t, writeReg x b s = .next t ∧ t.getV x = b ∧ t.pc = s.pc + 2 ∧ sameButRegs [x] s t := by
  have hregs : sameRegsBut [x] s (s.setV x b).advance := fun r hr =>
    getV_setV_ne s (mt List.mem_singleton.mpr hr) b
  exact ⟨_, rfl, getV_setV_same s x b, rfl, hregs, rfl, ⟨rfl, rfl⟩, rfl, fun _ => rfl, ⟨rfl, rfl⟩, ⟨rfl, rfl, rfl⟩,
    ⟨rfl, rfl⟩⟩

/-! The timer instructions (R153 to R155) -/

/-- Their three words, read by the opcode map of R68: in family F the low byte selects. -/
theorem decode_timer_words (x : RegIx) :
    decode (0xF#4 ++ x ++ 0x07#8) = .ok (.ldFromDt x) ∧ decode (0xF#4 ++ x ++ 0x15#8) = .ok (.ldToDt x) ∧
      decode (0xF#4 ++ x ++ 0x18#8) = .ok (.ldToSt x) := by
  refine ⟨?_, ?_, ?_⟩ <;> rw [decoderIsTheOpcodeMapByTopNibble] <;> simp [mapByTopNibble]

/-- Settles O41: the read of `DT` is a register write, and a timer write leaves everything but its timer. -/
theorem timerInstructionsMoveBytes : Obligations.TimerInstructionsMoveBytes := by
  intro x s
  refine ⟨decode_timer_words x, writeReg_effect x s.dt s, ?ldToDt, ?ldToSt⟩
  case ldToDt => exact ⟨_, rfl, rfl, rfl, rfl, sameButTimers_setDt_advance s (s.getV x)⟩
  case ldToSt => exact ⟨_, rfl, rfl, rfl, rfl, sameButTimers_setSt_advance s (s.getV x)⟩

end Sys2Proof.Machine
end

section
/-! Proofs about faults (60_exceptions.md): every meaning answers a next state (R181), and an instruction faults exactly
at its site (R171). -/

namespace Sys2Proof.Machine

/-! Meanings that check first -/

/-- A check answers a next state on both sides. -/
theorem check_eq (c : Prop) [Decidable c] (k : ErrorKind) (info : Word) (s t : State) :
    (if c then trap k info s else .next t) = .next (if c then s.raise k info else t) :=
  (apply_ite Host.Outcome.next c _ _).symm

theorem withDataRange_eq (n : Nat) (s t : State) :
    withDataRange n s t = .next (if inRange s.i.toNat n then t else s.raise .memoryBounds s.i) :=
  (apply_ite Host.Outcome.next _ _ _).symm

/-! Completion (R181) -/

/-- Six instructions check first, four choose where `pc` goes, and the others answer one next state outright. -/
theorem exists_exec_eq_next (i : Instr) (s : State) : ∃ t, exec i s = .next t := by
  cases i with
  | call | ret | drw => exact ⟨_, check_eq _ _ _ _ _⟩
  | ldBcd | storeRegs | loadRegs => exact ⟨_, withDataRange_eq _ _ _⟩
  | seImm | sneImm | seReg | sneReg => exact ⟨_, skipIf_eq _ _⟩
  | _ => exact ⟨_, rfl⟩

/-- The fetch and the decoder, where they reject, have their fault taken in a next state. -/
theorem exists_step_eq_next {s : State} (hr : s.running) : ∃ t, step s = .next t := by
  rw [step_running hr]
  cases fetch s with
  | error e => exact ⟨_, rfl⟩
  | ok op =>
    cases hd : decode op with
    | error e => exact ⟨s.raise .decodeError op, by simp only [hd, trap]⟩
    | ok i =>
      obtain ⟨t, ht⟩ := exists_exec_eq_next i s
      exact ⟨t, by simp only [hd, ht]⟩

/-- Settles O10: a meaning answers a next state, and so does a step that gets no further than its fetch or decode. -/
theorem everyEnabledStepCompletes : Obligations.EveryEnabledStepCompletes :=
  ⟨exists_exec_eq_next, fun _ hr => exists_step_eq_next hr⟩

/-! Which instruction can raise what (R171) -/

/-- The converse of `exec_cases`: at its site an instruction takes its fault. -/
theorem exec_of_faultSite {i : Instr} {s : State} {k : ErrorKind} {info : Word} (h : faultSite i s k info) :
    exec i s = .next (s.raise k info) := by
  cases i with
  | call | ret | drw =>
    obtain ⟨hsite, rfl, rfl⟩ := h
    exact if_pos hsite
  | ldBcd | loadRegs =>
    obtain ⟨hsite, rfl, rfl⟩ := h
    exact withDataRange_out hsite
  | storeRegs x =>
    obtain ⟨hsite, rfl, rfl⟩ := h
    refine withDataRange_out ?_
    rwa [State.regsUpTo, length_regsFrom]
  | _ => exact h.elim

/-- The same in the words of R171: a state at the site, with no fault yet, is one where the instruction raises it. -/
theorem faultTaken_of_faultSite {i : Instr} {s : State} {k : ErrorKind} {info : Word} (hs : s.err = 0)
    (h : faultSite i s k info) :
    s.err = 0 ∧ exec i s = .next (s.raise k info) ∧ faultTaken k info s (s.raise k info) :=
  ⟨hs, exec_of_faultSite h, rfl⟩

/-- An instruction that ends in a fault has taken the fault of its site. -/
theorem exists_faultSite_of_exec {i : Instr} {s t : State} (hs : s.err = 0) (h : exec i s = .next t)
    (ht : t.err ≠ 0) : ∃ k info, faultSite i s k info ∧ faultTaken k info s t := by
  rcases exec_cases h with hfault | hdone
  · exact hfault
  · exact absurd (hdone.err.trans hs) ht

/-- Settles O13: nothing faults outside its site, by `exec_cases`; and each of the six has a state at its site: a full
stack, an empty one, and `I` just past RAM. -/
theorem onlySixInstructionsFault : Obligations.OnlySixInstructionsFault := by
  refine ⟨fun i s t hs h ht => ?_, fun nnn => ?_, ?_, fun x y n => ?_, fun x => ⟨?ldBcd, ?storeRegs, ?loadRegs⟩⟩
  · obtain ⟨k, info, hsite, hfault⟩ := exists_faultSite_of_exec hs h ht
    cases i with
    | call nnn =>
      obtain ⟨-, rfl, rfl⟩ := hsite
      exact .inl ⟨⟨nnn, rfl⟩, hfault⟩
    | ret =>
      obtain ⟨-, rfl, rfl⟩ := hsite
      exact .inr (.inl ⟨rfl, hfault⟩)
    | drw | ldBcd | storeRegs | loadRegs =>
      obtain ⟨-, rfl, rfl⟩ := hsite
      exact .inr (.inr ⟨by simp, hfault⟩)
    | _ => exact hsite.elim
  · exact ⟨State.reset.setSp 16, _, faultTaken_of_faultSite rfl ⟨rfl, rfl, rfl⟩⟩
  · exact ⟨State.reset, _, faultTaken_of_faultSite rfl ⟨rfl, rfl, rfl⟩⟩
  · exact ⟨State.reset.setI 0x1000, _, faultTaken_of_faultSite rfl ⟨Nat.le_add_right _ _, rfl, rfl⟩⟩
  case ldBcd | storeRegs | loadRegs =>
    exact ⟨State.reset.setI 0x1000, _, faultTaken_of_faultSite rfl ⟨Nat.lt_add_of_pos_right (by omega), rfl, rfl⟩⟩

end Sys2Proof.Machine
end

section
/-! Proofs about the round trips of the encoding (30_encoding.md): every entry of the table is undone by the encoder,
its nibble pattern is its `mask` and `match`, and no two entries share a word. -/

namespace Sys2Proof.Machine

/-! Decoding an encoded instruction (R63, R66) -/

/-- Read by the opcode map of R68: the top nibble selects the family; within families 0, 5, 8, 9, E and F the bits the
entry fixes do. -/
theorem decode_encode (i : Instr) : decode (encode i) = .ok i := by
  rw [decoderIsTheOpcodeMapByTopNibble]
  cases i with
  | cls | ret => decide
  | _ => simp [encode, mapByTopNibble]

/-- Settles O1: on the word by `decode_encode`, and the two bytes RAM holds make that word again. -/
theorem decodeOfEncodeIsTheInstruction : Obligations.DecodeOfEncodeIsTheInstruction := by
  intro i rest
  refine ⟨decode_encode i, ?_⟩
  have hword : wordOfBytes (wordHi (encode i)) (wordLo (encode i)) = encode i := wordOfBytes_split _
  show decodeBytes (wordHi (encode i) :: wordLo (encode i) :: rest) = _
  simp only [decodeBytes, hword, decode_encode]

/-- Settles O6: the six legal words are those the encoder writes for their instructions; the table admits none of the
other four. -/
theorem wordsOfTheSpecDecode : Obligations.WordsOfTheSpecDecode :=
  ⟨decode_encode .cls, decode_encode (.call 0xABC), decode_encode (.seReg 0xA 0xB), decode_encode (.subnReg 0xA 0xB),
    decode_encode (.drw 0xA 0xB 5), decode_encode (.loadRegs 0xA), by decide, by decide, by decide, by decide⟩

/-! Encoding a decoded word (R63, R64, R70) -/

/-- The encoder gives back every word an entry admits. -/
def Faithful (r : Row) : Prop := ∀ w : Word, r.admits w = true → encode (r.build w) = w

section
variable {m : String} {a b c d : Nibble} {bits mask : Word}

/-- An entry without a placeholder. -/
theorem faithful_fixed {i : Instr} (h : encode i = (a ++ b ++ c ++ d : Word)) :
    Faithful ⟨m, a, .fixed b, .fixed c, .fixed d, bits, mask, fun _ => i⟩ := by
  intro w hw
  simp only [Row.admits, Slot.admits, Bool.and_eq_true, beq_iff_eq] at hw
  obtain ⟨⟨⟨rfl, rfl⟩, rfl⟩, rfl⟩ := hw
  exact h.trans (nibbles_of_word w)

theorem faithful_nnn (f : Addr12 → Instr) (h : ∀ nnn, encode (f nnn) = (a ++ nnn : Word)) :
    Faithful ⟨m, a, .imm12, .covered, .covered, bits, mask, fun w => f (fieldNNN w)⟩ := by
  intro w hw
  have ha : a = nibA w := by simpa [Row.admits, Slot.admits] using hw
  rw [h, ha, addr_of_word]

theorem faithful_x_kk (f : RegIx → Byte → Instr) (h : ∀ x kk, encode (f x kk) = (a ++ x ++ kk : Word)) :
    Faithful ⟨m, a, .regX, .imm8, .covered, bits, mask, fun w => f (fieldX w) (fieldKK w)⟩ := by
  intro w hw
  have ha : a = nibA w := by simpa [Row.admits, Slot.admits] using hw
  rw [h, ha, fieldX, byte_of_word]

theorem faithful_x_y (f : RegIx → RegIx → Instr) (h : ∀ x y, encode (f x y) = (a ++ x ++ y ++ d : Word)) :
    Faithful ⟨m, a, .regX, .regY, .fixed d, bits, mask, fun w => f (fieldX w) (fieldY w)⟩ := by
  intro w hw
  obtain ⟨ha, hd⟩ : a = nibA w ∧ d = nibD w := by simpa [Row.admits, Slot.admits] using hw
  rw [h, ha, hd, fieldX, fieldY, nibbles_of_word]

theorem faithful_x_y_n (f : RegIx → RegIx → Nibble → Instr)
    (h : ∀ x y n, encode (f x y n) = (a ++ x ++ y ++ n : Word)) :
    Faithful ⟨m, a, .regX, .regY, .imm4, bits, mask, fun w => f (fieldX w) (fieldY w) (fieldN w)⟩ := by
  intro w hw
  have ha : a = nibA w := by simpa [Row.admits, Slot.admits] using hw
  rw [h, ha, fieldX, fieldY, fieldN, nibbles_of_word]

theorem faithful_x (f : RegIx → Instr) (h : ∀ x, encode (f x) = (a ++ x ++ (c ++ d : Byte) : Word)) :
    Faithful ⟨m, a, .regX, .fixed c, .fixed d, bits, mask, fun w => f (fieldX w)⟩ := by
  intro w hw
  obtain ⟨⟨ha, hc⟩, hd⟩ : (a = nibA w ∧ c = nibC w) ∧ d = nibD w := by simpa [Row.admits, Slot.admits] using hw
  rw [h, ha, hc, hd, fieldX, ← fieldKK_nibbles, byte_of_word]

end

theorem faithful_rowsControl : ∀ r ∈ rowsControl, Faithful r := by
  simp only [rowsControl, List.forall_mem_cons]
  exact ⟨faithful_fixed rfl, faithful_fixed rfl, faithful_nnn .jp fun _ => rfl, faithful_nnn .call fun _ => rfl,
    faithful_x_kk .seImm fun _ _ => rfl, faithful_x_kk .sneImm fun _ _ => rfl, faithful_x_y .seReg fun _ _ => rfl,
    faithful_x_kk .ldImm fun _ _ => rfl, faithful_x_kk .addImm fun _ _ => rfl, List.forall_mem_nil _⟩

theorem faithful_rowsFamily8 : ∀ r ∈ rowsFamily8, Faithful r := by
  simp only [rowsFamily8, List.forall_mem_cons]
  exact ⟨faithful_x_y .ldReg fun _ _ => rfl, faithful_x_y .orReg fun _ _ => rfl, faithful_x_y .andReg fun _ _ => rfl,
    faithful_x_y .xorReg fun _ _ => rfl, faithful_x_y .addReg fun _ _ => rfl, faithful_x_y .subReg fun _ _ => rfl,
    faithful_x_y .shr fun _ _ => rfl, faithful_x_y .subnReg fun _ _ => rfl, faithful_x_y .shl fun _ _ => rfl,
    List.forall_mem_nil _⟩

theorem faithful_rowsNineToE : ∀ r ∈ rowsNineToE, Faithful r := by
  simp only [rowsNineToE, List.forall_mem_cons]
  exact ⟨faithful_x_y .sneReg fun _ _ => rfl, faithful_nnn .ldI fun _ => rfl, faithful_nnn .jpV0 fun _ => rfl,
    faithful_x_kk .rnd fun _ _ => rfl, faithful_x_y_n .drw fun _ _ _ => rfl, faithful_x .skp fun _ => rfl,
    faithful_x .sknp fun _ => rfl, List.forall_mem_nil _⟩

theorem faithful_rowsFamilyF : ∀ r ∈ rowsFamilyF, Faithful r := by
  simp only [rowsFamilyF, List.forall_mem_cons]
  exact ⟨faithful_x .ldFromDt fun _ => rfl, faithful_x .ldKey fun _ => rfl, faithful_x .ldToDt fun _ => rfl,
    faithful_x .ldToSt fun _ => rfl, faithful_x .addI fun _ => rfl, faithful_x .ldFont fun _ => rfl,
    faithful_x .ldBcd fun _ => rfl, faithful_x .storeRegs fun _ => rfl, faithful_x .loadRegs fun _ => rfl,
    List.forall_mem_nil _⟩

theorem faithful_of_mem_definitionTable : ∀ r ∈ definitionTable, Faithful r := by
  simp only [definitionTable, List.forall_mem_append]
  exact ⟨⟨⟨faithful_rowsControl, faithful_rowsFamily8⟩, faithful_rowsNineToE⟩, faithful_rowsFamilyF⟩

/-- Settles O2: the entry that admitted the word built the instruction, and the encoder undoes every entry. -/
theorem encodeOfDecodeIsTheWord : Obligations.EncodeOfDecodeIsTheWord := by
  intro w i h
  obtain ⟨r, hr, hadmits, rfl⟩ := decode_ok h
  exact faithful_of_mem_definitionTable r hr w hadmits

/-! The nibble pattern, `mask` and `match` (R65) -/

/-- The nibble of `mask` a position stands for. -/
def maskNibble : Slot → Nibble
  | .fixed _ => 15#4
  | _ => 0

/-- The nibble of `match` a position stands for. -/
def matchNibble : Slot → Nibble
  | .fixed n => n
  | _ => 0

theorem Slot.admits_iff (p : Slot) (n : Nibble) : p.admits n = true ↔ n &&& maskNibble p = matchNibble p := by
  cases p with
  | fixed k =>
    rw [Slot.admits, maskNibble, matchNibble, Laws.Pattern.and_ones4, beq_iff_eq, eq_comm]
  | _ => simp [Slot.admits, maskNibble, matchNibble]

/-- Every entry's `mask` and `match` are those of its four positions. -/
theorem mask_bits_of_mem_definitionTable : ∀ r ∈ definitionTable,
    r.mask = (0xF#4 ++ maskNibble r.b ++ maskNibble r.c ++ maskNibble r.d : Word) ∧
    r.bits = (r.a ++ matchNibble r.b ++ matchNibble r.c ++ matchNibble r.d : Word) := by
  decide

theorem nibbles_inj {a b c d a' b' c' d' : Nibble} :
    (a ++ b ++ c ++ d : Word) = (a' ++ b' ++ c' ++ d' : Word) ↔ ((a = a' ∧ b = b') ∧ c = c') ∧ d = d' := by
  constructor
  · intro h
    have hA := congrArg nibA h
    have hB := congrArg nibB h
    have hC := congrArg nibC h
    have hD := congrArg nibD h
    simp only [nibA_nibbles, nibB_nibbles, nibC_nibbles, nibD_nibbles] at hA hB hC hD
    exact ⟨⟨⟨hA, hB⟩, hC⟩, hD⟩
  · rintro ⟨⟨⟨rfl, rfl⟩, rfl⟩, rfl⟩
    rfl

theorem admits_iff_mask {r : Row} (hr : r ∈ definitionTable) (w : Word) :
    r.admits w = true ↔ w &&& r.mask = r.bits := by
  obtain ⟨hmask, hbits⟩ := mask_bits_of_mem_definitionTable r hr
  have hand : w &&& r.mask = (nibA w &&& 0xF#4) ++ (nibB w &&& maskNibble r.b) ++ (nibC w &&& maskNibble r.c) ++
      (nibD w &&& maskNibble r.d) := by
    conv_lhs => rw [← nibbles_of_word w, hmask]
    rw [BitVec.and_append, BitVec.and_append, BitVec.and_append]
  rw [hand, hbits, nibbles_inj, ← Slot.admits_iff, ← Slot.admits_iff, ← Slot.admits_iff]
  simp [Row.admits, Laws.Pattern.and_ones4, eq_comm (a := r.a)]

theorem find?_admits_eq_find?_mask (w : Word) :
    definitionTable.find? (fun r => r.admits w) = definitionTable.find? (fun r => w &&& r.mask == r.bits) := by
  refine List.find?_congr fun r hr => ?_
  rw [Bool.eq_iff_iff, admits_iff_mask hr, beq_iff_eq]

/-- The decoder scans by `mask` and `match` as well. -/
theorem decode_eq_elim_find?_mask (w : Word) :
    decode w = (definitionTable.find? (fun r => w &&& r.mask == r.bits)).elim (.error (.noMatch w))
      fun r => .ok (r.build w) := by
  rw [← find?_admits_eq_find?_mask, decode]
  cases definitionTable.find? (fun r => r.admits w) <;> rfl

/-! No word matches two entries (R67) -/

/-- Two entries clash on a bit that both fix. -/
theorem definitionTable_clash :
    definitionTable.Pairwise fun r r' => r'.mask &&& r.bits ≠ r.mask &&& r'.bits := by
  decide

theorem definitionTable_disjoint :
    definitionTable.Pairwise fun r r' => ∀ w : Word, ¬ (r.admits w = true ∧ r'.admits w = true) := by
  refine definitionTable_clash.imp_of_mem fun {r r'} hr hr' hclash w hboth => hclash ?_
  obtain ⟨h, h'⟩ := hboth
  rw [← (admits_iff_mask hr w).mp h, ← (admits_iff_mask hr' w).mp h']
  ac_rfl

/-- Where at most one entry of a list has a property, no permutation finds another. -/
theorem find?_perm {α : Type} {p : α → Bool} {l l' : List α} (hperm : l'.Perm l)
    (hone : l.Pairwise fun a b => ¬ (p a = true ∧ p b = true)) : l'.find? p = l.find? p := by
  have hfilter : (l'.filter p).Perm (l.filter p) := hperm.filter p
  rw [← List.head?_filter, ← List.head?_filter]
  match hl : l.filter p with
  | [] => rw [hl] at hfilter; rw [hfilter.eq_nil]
  | [a] => rw [hl] at hfilter; rw [List.perm_singleton.mp hfilter]
  | a :: b :: rest =>
    have ha : p a = true := List.of_mem_filter (l := l) (by simp [hl])
    have hb : p b = true := List.of_mem_filter (l := l) (by simp [hl])
    have hpair := hone.sublist (List.filter_sublist (p := p))
    rw [hl] at hpair
    exact absurd ⟨ha, hb⟩ (List.rel_of_pairwise_cons hpair List.mem_cons_self)

/-- Settles O4: the entries clash pairwise, so a scan finds at most one of them. -/
theorem noWordMatchesTwoEntries : Obligations.NoWordMatchesTwoEntries := by
  refine ⟨rfl, definitionTable_disjoint, fun T hT w => ?_⟩
  rw [find?_perm hT (definitionTable_disjoint.imp fun h => h w)]

end Sys2Proof.Machine
end

section
/-! Proofs about the step (40_control_flow.md R80) and the faults of fetch and decode (20_memory.md R46,
60_exceptions.md R161 to R171). -/

namespace Sys2Proof.Machine

/-! Where a fetch can read (R46) -/

theorem getLsbD_zero_eq_false_iff (w : Word) : w.getLsbD 0 = false ↔ w.toNat % 2 = 0 := by
  rw [BitVec.getLsbD, Nat.testBit_zero, decide_eq_false_iff_not]
  omega

/-- Below the end of RAM an even address leaves room for two bytes. -/
theorem fetchable_of_even {s : State} (heven : s.pc.getLsbD 0 = false) (hlt : s.pc.toNat < 0x1000) : s.fetchable := by
  have hmod := (getLsbD_zero_eq_false_iff s.pc).mp heven
  have hroom : s.pc.toNat + 2 ≤ 0x1000 := by omega
  exact ⟨heven, hroom⟩

theorem fetch_of_odd {s : State} (hodd : s.pc.getLsbD 0 = true) : fetch s = .error (.fetchMisaligned, s.pc) :=
  if_pos hodd

theorem fetch_of_out {s : State} (heven : s.pc.getLsbD 0 = false) (hout : 0x1000 ≤ s.pc.toNat) :
    fetch s = .error (.memoryBounds, s.pc) := by
  rcases fetch_cases s with ⟨hodd, -⟩ | ⟨-, -, hf⟩ | ⟨-, hin, -⟩
  · exact absurd (heven.symm.trans hodd) Bool.false_ne_true
  · exact hf
  · simp only [Config.ramSize] at hin
    omega

theorem fetch_of_fetchable {s : State} (hs : s.fetchable) : fetch s = .ok (s.ram.readWord s.pc.toNat) := by
  obtain ⟨heven, hin⟩ := hs
  rcases fetch_cases s with ⟨hodd, -⟩ | ⟨-, hout, -⟩ | ⟨-, -, hf⟩
  · exact absurd (heven.symm.trans hodd) Bool.false_ne_true
  · omega
  · exact hf

/-! The step of a running machine, by what its fetch and its decoder answer -/

section
variable {s : State}

theorem step_of_fetch_error {k : ErrorKind} {info : Word} (hr : s.running) (hf : fetch s = .error (k, info)) :
    step s = .next (s.raise k info) := by
  rw [step_running hr, hf]
  rfl

theorem step_of_decode_error {e : Reject} (hr : s.running) (hs : s.fetchable)
    (hd : decode (s.ram.readWord s.pc.toNat) = .error e) :
    step s = .next (s.raise .decodeError (s.ram.readWord s.pc.toNat)) := by
  rw [step_running hr, fetch_of_fetchable hs]
  simp only [hd, trap]

theorem step_of_decode_ok {i : Instr} (hr : s.running) (hs : s.fetchable)
    (hd : decode (s.ram.readWord s.pc.toNat) = .ok i) : step s = exec i s := by
  rw [step_running hr, fetch_of_fetchable hs]
  simp only [hd]

theorem step_of_halted (hs : s.halted) : step s = .fault .terminated := by
  obtain ⟨hterm, herr⟩ := hs
  simp [step, hterm, herr]

theorem step_of_faulted (hs : s.faulted) : step s = .fault .faulted := by
  exact if_pos (bne_iff_ne.mpr hs)

/-- A machine that does not run has halted or is faulted (R22). -/
theorem over_of_not_running (hs : ¬ s.running) : s.over := by
  by_cases herr : s.err = 0
  · have hterm : s.terminated ≠ false := fun h => hs ⟨h, herr⟩
    exact .inl ⟨by simpa using hterm, herr⟩
  · exact .inr herr

end

/-- Settles O7: by `step_of_decode_ok`: a fetchable `pc` is fetched, and what the decoder accepts is run. -/
theorem stepRunsTheDecodedInstruction : Obligations.StepRunsTheDecodedInstruction :=
  fun _ _ hr hs hd => step_of_decode_ok hr hs hd

/-- Settles O9: `step` tests `ERR` and then `Terminated` before it fetches. -/
theorem noStepOnceTheRunIsOver : Obligations.NoStepOnceTheRunIsOver :=
  fun _ => ⟨step_of_halted, step_of_faulted⟩

/-- Settles O8: the three answers of the fetch, and the two of the decoder where the fetch reads a word. -/
theorem stepFaultsInOrder : Obligations.StepFaultsInOrder := by
  intro s hr
  refine ⟨fun hodd => ?_, fun heven hout => ?_, fun heven hlt op hop => ?_⟩
  · exact ⟨_, step_of_fetch_error hr (fetch_of_odd hodd), rfl⟩
  · exact ⟨_, step_of_fetch_error hr (fetch_of_out heven hout), rfl⟩
  · have hs := fetchable_of_even heven hlt
    subst hop
    exact ⟨fun e he => ⟨_, step_of_decode_error hr hs he, rfl⟩, fun i hi => step_of_decode_ok hr hs hi⟩

/-- Settles O3: position by position a nibble is admitted exactly when it passes `mask` and `match`, so both scans find
the same entry; where none is found the decoder rejects the word. -/
theorem maskAndMatchAgreeWithTheNibblePattern : Obligations.MaskAndMatchAgreeWithTheNibblePattern := by
  refine ⟨fun r hr w => admits_iff_mask hr w, fun w => ?_, fun s hr hs hnone => ?_⟩
  · rw [decode_eq_elim_find?_mask]
    cases definitionTable.find? (fun r => w &&& r.mask == r.bits) <;> rfl
  · have hd : decode (s.ram.readWord s.pc.toNat) = .error (.noMatch (s.ram.readWord s.pc.toNat)) := by
      rw [decode_eq_elim_find?_mask, hnone]
      rfl
    exact ⟨_, step_of_decode_error hr hs hd, rfl⟩

/-! Where an instruction's own fault is raised (R162) -/

theorem exec_err_ne_zero_iff {i : Instr} {s t : State} (hs : s.err = 0) (h : exec i s = .next t) :
    t.err ≠ 0 ↔ ∃ k info, faultSite i s k info := by
  rcases exec_cases h with ⟨k, info, hsite, rfl⟩ | hdone
  · exact iff_of_true (code_range k).1 ⟨k, info, hsite⟩
  · exact iff_of_false (fun ht => ht (hdone.err.trans hs)) fun ⟨k, info, hsite⟩ => hdone.site k info hsite

/-- For an instruction whose only fault is a data access: it is raised exactly where the access leaves RAM. -/
theorem memoryBounds_site {i : Instr} {s t : State} {c : Prop}
    (hi : ∀ k info, faultSite i s k info ↔ c ∧ k = .memoryBounds ∧ info = s.i) (hs : s.err = 0)
    (h : exec i s = .next t) : (t.err ≠ 0 ↔ c) ∧ (t.err ≠ 0 → faultTaken .memoryBounds s.i s t) := by
  refine ⟨?_, fun ht => ?_⟩
  · rw [exec_err_ne_zero_iff hs h]
    simp [hi]
  · obtain ⟨k, info, hsite, hfault⟩ := exists_faultSite_of_exec hs h ht
    obtain ⟨-, rfl, rfl⟩ := (hi k info).mp hsite
    exact hfault

/-- The stack operations raise faults of their own kinds only (R163, R164). -/
theorem err_ne_memoryBounds_of_stack {i : Instr} {s t : State} (hs : s.err = 0) (hi : i = .ret ∨ ∃ nnn, i = .call nnn)
    (h : exec i s = .next t) : t.err ≠ ErrorKind.memoryBounds.code := by
  rcases exec_cases h with ⟨k, info, hsite, rfl⟩ | hdone
  · rcases hi with rfl | ⟨nnn, rfl⟩
    · obtain ⟨-, rfl, -⟩ := hsite
      exact (by decide : ErrorKind.stackUnderflow.code ≠ ErrorKind.memoryBounds.code)
    · obtain ⟨-, rfl, -⟩ := hsite
      exact (by decide : ErrorKind.stackOverflow.code ≠ ErrorKind.memoryBounds.code)
  · rw [hdone.err, hs]
    exact (code_range .memoryBounds).1.symm

/-- Settles O14: the fetch by `fetch_of_out`, each data access by its fault site. -/
theorem memoryBoundsErrorSites : Obligations.MemoryBoundsErrorSites := by
  refine ⟨fun s t hr heven h hout => ?_, fun x y n s t => ?drw, fun x s t => ?ldBcd, fun x s t => ?storeRegs,
    fun x s t => ?loadRegs, fun i s t => err_ne_memoryBounds_of_stack⟩
  · cases (step_of_fetch_error hr (fetch_of_out heven hout)).symm.trans h
    rfl
  case drw => exact memoryBounds_site fun _ _ => Iff.rfl
  case ldBcd => exact memoryBounds_site fun _ _ => and_congr_left' (by simp only [Config.ramSize]; omega)
  case storeRegs => exact memoryBounds_site fun _ _ => and_congr_left' (by simp only [Config.ramSize]; omega)
  case loadRegs => exact memoryBounds_site fun _ _ => and_congr_left' (by simp only [Config.ramSize]; omega)

end Sys2Proof.Machine
end

section
/-! Proofs about what an instruction changes and reads: the write columns of the access matrix (10_state.md R31), `pc`
(40_control_flow.md R82), `Terminated` (R19, R83), and that `ST` and `Dirty` are read by none (R16, R21). -/

namespace Sys2Proof.Machine

/-! The write columns (R31) -/

/-- Which fields an instruction may change: the write columns of R31, and the counter of the free bytes (log 3). -/
structure WriteColumns (i : Instr) (s t : State) : Prop where
  index : t.i ≠ s.i → (∃ nnn, i = .ldI nnn) ∨ (∃ x, i = .addI x) ∨ ∃ x, i = .ldFont x
  dt : t.dt ≠ s.dt → ∃ x, i = .ldToDt x
  st : t.st ≠ s.st → ∃ x, i = .ldToSt x
  sp : t.sp ≠ s.sp → i = .ret ∨ ∃ nnn, i = .call nnn
  ram : t.ram ≠ s.ram → (∃ nnn, i = .call nnn) ∨ (∃ x, i = .ldBcd x) ∨ ∃ x, i = .storeRegs x
  vram : t.vram ≠ s.vram → i = .cls ∨ ∃ x y n, i = .drw x y n
  dirty : t.dirty ≠ s.dirty → (i = .cls ∨ ∃ x y n, i = .drw x y n) ∧ t.dirty = true
  params : t.params = s.params
  draws : t.draws ≠ s.draws → ∃ x kk, i = .rnd x kk

/-- By the operation an instruction is made of: one that checks first either takes its fault or completes, and each
completion names the fields it sets. -/
theorem exec_writeColumns {i : Instr} {s t : State} (h : exec i s = .next t) : WriteColumns i s t := by
  cases i with
  | call | ret | drw =>
    rcases trap_or_completion h with ⟨-, rfl⟩ | ⟨-, rfl⟩ <;> constructor <;> simp [State.drawnOn]
  | ldBcd | storeRegs => rcases withDataRange_next h with ⟨-, rfl⟩ | ⟨-, rfl⟩ <;> constructor <;> simp
  | loadRegs =>
    rcases withDataRange_next h with ⟨-, rfl⟩ | ⟨-, rfl⟩
    · rw [loadFrom_frame]
      constructor <;> simp
    · constructor <;> simp
  | seImm | sneImm | seReg | sneReg =>
    cases (skipIf_eq _ _).symm.trans h
    constructor <;> simp
  | _ =>
    cases h
    constructor <;> simp

/-- Settles O44: by `exec_writeColumns`, whose last column the matrix does not have. -/
theorem writeColumnsOfTheAccessMatrix : Obligations.WriteColumnsOfTheAccessMatrix := by
  intro i s t h
  obtain ⟨hindex, hdt, hst, hsp, hram, hvram, hdirty, hparams, -⟩ := exec_writeColumns h
  exact ⟨hindex, hdt, hst, hsp, hram, hvram, hdirty, hparams⟩

/-! The value of `pc` (R82) -/

theorem raise_err_ne_zero (s : State) (k : ErrorKind) (info : Word) : (s.raise k info).err ≠ 0 := (code_range k).1

theorem exec_pc {i : Instr} {s t : State} (h : exec i s = .next t) (ht : t.err = 0) : t.pc = pcAfter s i := by
  cases i with
  | call | ret | drw =>
    rcases trap_or_completion h with ⟨-, rfl⟩ | ⟨-, rfl⟩
    · exact absurd ht (raise_err_ne_zero _ _ _)
    · rfl
  | ldBcd | storeRegs =>
    rcases withDataRange_next h with ⟨-, rfl⟩ | ⟨-, rfl⟩
    · rfl
    · exact absurd ht (raise_err_ne_zero _ _ _)
  | loadRegs =>
    rcases withDataRange_next h with ⟨-, rfl⟩ | ⟨-, rfl⟩
    · rw [loadFrom_frame]
      rfl
    · exact absurd ht (raise_err_ne_zero _ _ _)
  | seImm | sneImm | seReg | sneReg =>
    cases (skipIf_eq _ _).symm.trans h
    simp [pcAfter]
  | _ =>
    cases h
    rfl

theorem pc_add_toNat {s : State} (hs : s.fetchable) {n : Nat} (hn : n ≤ 4) :
    (s.pc + BitVec.ofNat 16 n).toNat = s.pc.toNat + n := by
  obtain ⟨-, hin⟩ := hs
  simp only [Config.ramSize] at hin
  rw [BitVec.toNat_add, BitVec.toNat_ofNat]
  omega

/-- Settles O42: a fault is taken in a state with the same `pc`, and a completion leaves the value of `exec_pc`. -/
theorem pcAfterEveryInstruction : Obligations.PcAfterEveryInstruction := by
  refine ⟨fun i s t hs h => ⟨fun ht => ?_, exec_pc h⟩, fun s hs => ⟨?_, ?_, ?_⟩⟩
  · obtain ⟨k, info, -, rfl⟩ := exists_faultSite_of_exec hs h ht
    rfl
  · exact pc_add_toNat hs (by decide)
  · exact pc_add_toNat hs (by decide)
  · obtain ⟨-, hin⟩ := hs
    simp only [Config.ramSize] at hin
    omega

/-! `Terminated` (R19, R83) -/

theorem exec_terminated {i : Instr} {s t : State} (h : exec i s = .next t) : t.terminated = terminatedAfter i s := by
  rcases exec_cases h with ⟨k, info, hsite, rfl⟩ | hdone
  · cases i with
    | jp => exact hsite.elim
    | _ => rfl
  · exact hdone.terminated

theorem terminatedAfter_of_ne_jp {i : Instr} (s : State) (hi : ∀ nnn, i ≠ .jp nnn) :
    terminatedAfter i s = s.terminated := by
  cases i with
  | jp nnn => exact absurd rfl (hi nnn)
  | _ => rfl

/-- From a state that has not halted, only a jump to its own address halts. -/
theorem terminatedAfter_iff {i : Instr} {s : State} (hs : s.terminated = false) :
    terminatedAfter i s = true ↔ ∃ nnn, i = .jp nnn ∧ zext16 nnn = s.pc := by
  cases i with
  | jp nnn => simp [terminatedAfter, hs]
  | _ => simp [terminatedAfter, hs]

theorem atSelfJump_iff {s : State} {i : Instr} (hs : s.fetchable) (hd : decode (s.ram.readWord s.pc.toNat) = .ok i) :
    s.atSelfJump ↔ ∃ nnn, i = .jp nnn ∧ zext16 nnn = s.pc := by
  simp [State.atSelfJump, hs, hd]

/-- A fault of the fetch or the decoder is taken where no jump stands, and any other step runs the instruction at
`pc`. -/
theorem step_terminated_iff {s t : State} (h : step s = .next t) : t.terminated = true ↔ s.atSelfJump := by
  obtain ⟨⟨hterm, herr⟩, hcases⟩ := step_cases h
  rcases hcases with ⟨hodd, rfl⟩ | ⟨-, hout, rfl⟩ | ⟨-, hd, rfl⟩ | ⟨hs, i, hd, hexec⟩
  · refine iff_of_false (by simp [hterm]) fun ⟨⟨heven, _⟩, _⟩ => ?_
    exact Bool.false_ne_true (heven.symm.trans hodd)
  · exact iff_of_false (by simp [hterm]) fun ⟨⟨_, hin⟩, _⟩ => absurd hin (Nat.not_le.mpr hout)
  · refine iff_of_false (by simp [hterm]) fun ⟨_, nnn, hjp, _⟩ => ?_
    cases hd.symm.trans hjp
  · rw [exec_terminated hexec, terminatedAfter_iff hterm, atSelfJump_iff hs hd]

/-- Settles O15: the effect by unfolding the jump, and for every other instruction `terminatedAfter` is `Terminated`
as before. -/
theorem jumpGoesToItsTargetAndHaltsOnItself : Obligations.JumpGoesToItsTargetAndHaltsOnItself := by
  intro nnn s
  refine ⟨decode_encode (.jp nnn), ⟨_, rfl, rfl, ?_, fun _ _ => rfl, rfl, ⟨rfl, rfl⟩, rfl, fun _ => rfl, ⟨rfl, rfl⟩,
    rfl, rfl, ⟨rfl, rfl⟩⟩, fun i t hi h => ?_⟩
  · by_cases hself : zext16 nnn = s.pc <;> simp [hself]
  · rw [exec_terminated h, terminatedAfter_of_ne_jp s hi]

/-! The counter of the free bytes (log 3) -/

/-- Settles O27: RND by its own effect, any other instruction by its write columns. -/
theorem eachRandomTakesTheNextDraw : Obligations.EachRandomTakesTheNextDraw := by
  refine ⟨fun x kk s t h => ?_, fun i s t hi h => ?_⟩
  · cases h
    exact ⟨getV_setV_same s x _, rfl⟩
  · by_contra hne
    obtain ⟨x, kk, hrnd⟩ := (exec_writeColumns h).draws hne
    exact hi x kk hrnd

/-! `ST` and `Dirty` are not read (R16, R21) -/

theorem regsFrom_congr {s t : State} (h : ∀ r, t.getV r = s.getV r) (k n : Nat) : t.regsFrom k n = s.regsFrom k n := by
  induction n generalizing k with
  | zero => rfl
  | succ n ih => rw [State.regsFrom, State.regsFrom, h, ih]

/-- `s` with another sound timer and another `Dirty`. -/
def State.withHidden (s : State) (b : Byte) (d : Bool) : State := (s.setSt b).setDirty d

theorem loadFrom_withHidden (s : State) (b : Byte) (d : Bool) (k : Nat) (bs : List Byte) :
    (s.withHidden b d).loadFrom k bs = (s.loadFrom k bs).withHidden b d := by
  induction bs generalizing s k with
  | nil => rfl
  | cons v bs ih => exact ih (s.setV (BitVec.ofNat 4 k) v) (k + 1)

/-- The two sides of a check end alike where its completion does. -/
theorem check_withHidden {c : Prop} [Decidable c] {k : ErrorKind} {info : Word} {s t t' u : State} {b b' : Byte}
    {d d' : Bool} (hu : u = t'.withHidden b' d') (h : (if c then trap k info s else .next t') = .next t) :
    ∃ b' d', (if c then trap k info (s.withHidden b d) else .next u) = .next (t.withHidden b' d') := by
  rcases trap_or_completion h with ⟨hc, rfl⟩ | ⟨hc, rfl⟩
  · exact ⟨b, d, if_pos hc⟩
  · exact ⟨b', d', (if_neg hc).trans (congrArg _ hu)⟩

theorem withDataRange_withHidden {n : Nat} {s t t' u : State} {b : Byte} {d : Bool} (hu : u = t'.withHidden b d)
    (h : withDataRange n s t' = .next t) :
    ∃ b' d', withDataRange n (s.withHidden b d) u = .next (t.withHidden b' d') := by
  rcases withDataRange_next h with ⟨hin, rfl⟩ | ⟨hout, rfl⟩
  · exact ⟨b, d, (withDataRange_ok (s := s.withHidden b d) hin).trans (congrArg _ hu)⟩
  · exact ⟨b, d, withDataRange_out hout⟩

/-- An instruction run from a state with another `ST` and `Dirty` ends alike in everything else. -/
theorem exec_withHidden {i : Instr} {s t : State} (b : Byte) (d : Bool) (h : exec i s = .next t) :
    ∃ b' d', exec i (s.withHidden b d) = .next (t.withHidden b' d') := by
  cases i with
  | call | ret => exact check_withHidden (b' := b) (d' := d) rfl h
  | drw => exact check_withHidden (b' := b) (d' := true) rfl h
  | ldBcd => exact withDataRange_withHidden rfl h
  | storeRegs x =>
    have hregs : (s.withHidden b d).regsUpTo x = s.regsUpTo x :=
      regsFrom_congr (s := s) (t := s.withHidden b d) (fun _ => rfl) _ _
    rw [exec, execStoreRegs, storeAtI, hregs]
    exact withDataRange_withHidden rfl h
  | loadRegs => exact withDataRange_withHidden (congrArg State.advance (loadFrom_withHidden s b d _ _)) h
  | seImm | sneImm | seReg | sneReg =>
    cases (skipIf_eq _ _).symm.trans h
    exact ⟨b, d, skipIf_eq _ _⟩
  | ldToSt x =>
    cases h
    exact ⟨s.getV x, d, rfl⟩
  | cls =>
    cases h
    exact ⟨b, true, rfl⟩
  | _ =>
    cases h
    exact ⟨b, d, rfl⟩

/-- The fetch and the decoder read `pc` and RAM only. -/
theorem step_withHidden {s t : State} (b : Byte) (d : Bool) (h : step s = .next t) :
    ∃ b' d', step (s.withHidden b d) = .next (t.withHidden b' d') := by
  obtain ⟨hr, hcases⟩ := step_cases h
  have hr' : (s.withHidden b d).running := hr
  rcases hcases with ⟨hodd, rfl⟩ | ⟨heven, hout, rfl⟩ | ⟨hs, hd, rfl⟩ | ⟨hs, i, hd, hexec⟩
  · exact ⟨b, d, step_of_fetch_error hr' (fetch_of_odd hodd)⟩
  · have hpc : 0x1000 ≤ s.pc.toNat := by
      rw [getLsbD_zero_eq_false_iff] at heven
      simp only [Config.ramSize] at hout
      omega
    exact ⟨b, d, step_of_fetch_error hr' (fetch_of_out heven hpc)⟩
  · exact ⟨b, d, step_of_decode_error (s := s.withHidden b d) hr' hs hd⟩
  · obtain ⟨b', d', hexec'⟩ := exec_withHidden b d hexec
    exact ⟨b', d', (step_of_decode_ok (s := s.withHidden b d) hr' hs hd).trans hexec'⟩

/-- Settles O46: what the second run leaves differs from the first in the two hidden fields, which the conclusion
overwrites. -/
theorem soundTimerAndDirtyDoNotInfluenceTheProgram : Obligations.SoundTimerAndDirtyDoNotInfluenceTheProgram := by
  intro s t b d h
  obtain ⟨b', d', h'⟩ := step_withHidden b d h
  exact ⟨_, h', rfl⟩

end Sys2Proof.Machine
end

section
/-! Proofs about the host's moves (70_reset_and_hazards.md R195 to R200, 60_exceptions.md R165, R176): `Step`, `Run`,
the timers and the framebuffer port. -/

namespace Sys2Proof.Machine

/-! `Step` as the host sees it (R197) -/

theorem hostStep_of_step {s t : State} (h : step s = .next t) :
    hostStep s = (if t.err = 0 then .stepped else .fault, t) := by
  rw [hostStep, h]

theorem hostStep_of_not_running {s : State} (hs : ¬ s.running) : hostStep s = (.notEnabled, s) := by
  rcases over_of_not_running hs with hhalted | hfaulted
  · rw [hostStep, step_of_halted hhalted]
  · rw [hostStep, step_of_faulted hfaulted]

/-- A step that ends faulted has taken one fault and done nothing else (R165). -/
theorem step_faulted {s t : State} (h : step s = .next t) (ht : t.faulted) : ∃ k info, t = s.raise k info := by
  obtain ⟨⟨-, herr⟩, hcases⟩ := step_cases h
  rcases hcases with ⟨-, rfl⟩ | ⟨-, -, rfl⟩ | ⟨-, -, rfl⟩ | ⟨-, i, -, hexec⟩
  · exact ⟨_, _, rfl⟩
  · exact ⟨_, _, rfl⟩
  · exact ⟨_, _, rfl⟩
  · obtain ⟨k, info, -, hfault⟩ := exists_faultSite_of_exec herr hexec ht
    exact ⟨k, info, hfault⟩

theorem step_faulted_frame {s t : State} (h : step s = .next t) (ht : t.faulted) :
    t = { s with err := t.err, errInfo := t.errInfo } := by
  obtain ⟨k, info, rfl⟩ := step_faulted h ht
  rfl

theorem running_or_halted {s : State} (hs : s.err = 0) : s.running ∨ s.halted := by
  cases hterm : s.terminated with
  | false => exact .inl ⟨hterm, hs⟩
  | true => exact .inr ⟨hterm, hs⟩

/-- Settles O11: a machine that does not run reports `notEnabled`; one that runs takes its step, which ends faulted or
not. -/
theorem hostStepHasThreeResults : Obligations.HostStepHasThreeResults := by
  intro s r t h
  by_cases hr : s.running
  · obtain ⟨u, hu⟩ := exists_step_eq_next hr
    rw [hostStep_of_step hu, Prod.mk.injEq] at h
    obtain ⟨rfl, rfl⟩ := h
    by_cases herr : u.err = 0
    · simpa [herr, hr, hu] using running_or_halted herr
    · simp only [if_neg herr, hr, hu, reduceCtorEq, not_true_eq_false, false_implies, true_and, true_implies]
      exact ⟨herr, step_faulted_frame hu herr⟩
  · rw [hostStep_of_not_running hr, Prod.mk.injEq] at h
    obtain ⟨rfl, rfl⟩ := h
    simp [hr]

/-! `Run` (R198) -/

/-- The end a run reports in the state it leaves. -/
def endOf (s : State) : RunEnd :=
  if s.err ≠ 0 then .fault s.err s.errInfo else if s.terminated then .halted else .stepBound

section
variable {s : State}

theorem endOf_of_running (hs : s.running) : endOf s = .stepBound := by
  obtain ⟨hterm, herr⟩ := hs
  simp [endOf, hterm, herr]

theorem endOf_of_halted (hs : s.halted) : endOf s = .halted := by
  obtain ⟨hterm, herr⟩ := hs
  simp [endOf, hterm, herr]

theorem endOf_of_faulted (hs : s.faulted) : endOf s = .fault s.err s.errInfo := if_pos hs

theorem endOf_eq_stepBound_iff : endOf s = .stepBound ↔ s.running := by
  refine ⟨fun h => ?_, endOf_of_running⟩
  by_contra hs
  rcases over_of_not_running hs with hhalted | hfaulted
  · cases (endOf_of_halted hhalted).symm.trans h
  · cases (endOf_of_faulted hfaulted).symm.trans h

theorem endOf_eq_fault_iff (code : BitVec 3) (info : Word) :
    endOf s = .fault code info ↔ s.faulted ∧ code = s.err ∧ info = s.errInfo := by
  by_cases hs : s.faulted
  · rw [endOf_of_faulted hs, RunEnd.fault.injEq]
    simp only [hs, true_and, eq_comm]
  · refine iff_of_false (fun h => ?_) fun ⟨hfaulted, _⟩ => hs hfaulted
    rcases running_or_halted (not_not.mp hs) with hr | hhalted
    · cases (endOf_of_running hr).symm.trans h
    · cases (endOf_of_halted hhalted).symm.trans h

theorem endOf_eq_halted_iff : endOf s = .halted ↔ s.halted := by
  refine ⟨fun h => ?_, endOf_of_halted⟩
  by_cases hs : s.faulted
  · cases (endOf_of_faulted hs).symm.trans h
  · rcases running_or_halted (not_not.mp hs) with hr | hhalted
    · cases (endOf_of_running hr).symm.trans h
    · exact hhalted

end

theorem run_zero (s : State) : run 0 s = (endOf s, s) := by
  rw [run, endOf, apply_ite (Prod.mk · s), apply_ite (Prod.mk · s)]

theorem run_succ_of_running {s : State} (hs : s.running) (n : Nat) : run (n + 1) s = run n (hostStep s).2 := by
  obtain ⟨hterm, herr⟩ := hs
  simp [run, hterm, herr]

/-- A run that is over stays as it is, whatever its budget. -/
theorem run_of_not_running {s : State} (hs : ¬ s.running) (n : Nat) : run n s = (endOf s, s) := by
  cases n with
  | zero => exact run_zero s
  | succ n =>
    rcases over_of_not_running hs with ⟨hterm, herr⟩ | herr
    · simp [run, endOf, hterm, herr]
    · rw [endOf_of_faulted herr]
      exact if_pos herr

theorem run_fst (n : Nat) (s : State) : (run n s).1 = endOf (run n s).2 := by
  induction n generalizing s with
  | zero => rw [run_zero]
  | succ n ih =>
    by_cases hs : s.running
    · rw [run_succ_of_running hs, ih]
    · rw [run_of_not_running hs]

theorem run_add (m n : Nat) (s : State) : run (m + n) s = run n (run m s).2 := by
  induction m generalizing s with
  | zero => rw [Nat.zero_add, run_zero]
  | succ m ih =>
    by_cases hs : s.running
    · rw [Nat.succ_add, run_succ_of_running hs, run_succ_of_running hs, ih]
    · rw [run_of_not_running hs, run_of_not_running hs, run_of_not_running hs]

/-- Settles O53: the end is `endOf` the state left, budgets add up, and a run that is over stays. -/
theorem runContinuesWhereItsBudgetEnded : Obligations.RunContinuesWhereItsBudgetEnded := by
  intro m n s t e h
  have ht : (run m s).2 = t := congrArg Prod.snd h
  have he : e = endOf t := by
    rw [← ht, ← run_fst, h]
  subst he
  refine ⟨endOf_eq_stepBound_iff, endOf_eq_halted_iff, endOf_eq_fault_iff, ?_, fun hover => ?_⟩
  · rw [run_add, ht]
  · rw [run_add, ht, run_of_not_running (mt endOf_eq_stepBound_iff.mpr hover)]

/-! Faults are sticky, and so is the halt (R165, R19) -/

/-- What a move other than Reset does to a machine that does not run. -/
theorem perform_of_not_running {a : Action} {h h' : Session} (hs : ¬ h.machine.running)
    (ha : ∀ ramInit, a ≠ .reset ramInit) (hp : perform a h = .next h') :
    h'.machine = h.machine ∨ h'.machine = h.machine.timerTick ∨ h'.machine = h.machine.dirtyAck ∨
      h.mayLoad = true ∧ ∃ bytes, h'.machine = h.machine.load bytes := by
  cases a with
  | reset ramInit => exact absurd rfl (ha ramInit)
  | load bytes =>
    rw [perform] at hp
    split at hp
    · next hmay =>
      cases hp
      exact .inr (.inr (.inr ⟨hmay, bytes, rfl⟩))
    · cases hp
  | step =>
    cases hp
    exact .inl (congrArg Prod.snd (hostStep_of_not_running hs))
  | runFor n =>
    cases hp
    exact .inl (congrArg Prod.snd (run_of_not_running hs n))
  | timerTick =>
    cases hp
    exact .inr (.inl rfl)
  | dirtyAck =>
    cases hp
    exact .inr (.inr (.inl rfl))

/-- Settles O12: the invariant of a session keeps the load port closed on a faulted machine. -/
theorem faultsArePreciseAndSticky : Obligations.FaultsArePreciseAndSticky := by
  refine ⟨fun k info s => ⟨rfl, rfl, rfl⟩, fun s t => step_faulted_frame, fun a h h' hinv hfaulted ha hp => ?_⟩
  have hnot : ¬ h.machine.running := fun ⟨_, herr⟩ => hfaulted herr
  obtain ⟨-, hport⟩ := hinv
  rcases perform_of_not_running hnot ha hp with heq | heq | heq | ⟨hmay, -⟩
  · exact ⟨by rw [heq], by rw [heq]⟩
  · exact ⟨by rw [heq]; rfl, by rw [heq]; rfl⟩
  · exact ⟨by rw [heq]; rfl, by rw [heq]; rfl⟩
  · exact absurd (hport hmay) hnot

theorem load_terminated (s : State) (bytes : List Byte) : (s.load bytes).terminated = s.terminated := by
  unfold State.load
  split <;> rfl

/-- Settles O45: a step by `step_terminated_iff`; a terminated machine does not run, and no move but Reset writes the
bit. -/
theorem terminatedIsSetByASelfJumpOnly : Obligations.TerminatedIsSetByASelfJumpOnly := by
  refine ⟨fun s t => step_terminated_iff, fun a h h' hterm ha hp => ?_⟩
  have hnot : ¬ h.machine.running := fun ⟨hfalse, _⟩ => Bool.false_ne_true (hfalse.symm.trans hterm)
  rcases perform_of_not_running hnot ha hp with heq | heq | heq | ⟨-, bytes, heq⟩
  · rw [heq, hterm]
  · rw [heq]
    exact hterm
  · rw [heq]
    exact hterm
  · rw [heq, load_terminated, hterm]

/-! The timers and the framebuffer port (R176, R199) -/

theorem countDown_toNat (b : Byte) : (countDown b).toNat = b.toNat - 1 := by
  unfold countDown
  split
  · next h => simp [h]
  · next h => bv_omega

/-- Settles O51: both timers by `countDown_toNat`; a tick writes nothing else. -/
theorem timerTickCountsDownToZero : Obligations.TimerTickCountsDownToZero := fun _ =>
  ⟨_, rfl, rfl, countDown_toNat _, countDown_toNat _, rfl, fun _ _ => rfl, rfl, rfl, fun _ => rfl, ⟨rfl, rfl⟩,
    ⟨rfl, rfl, rfl⟩, ⟨rfl, rfl⟩⟩

/-- Settles O52: the bytes read are the map of `VRAM[k]` over the 256 addresses in order. -/
theorem framebufferPort : Obligations.FramebufferPort := by
  intro _
  refine ⟨⟨?_, rfl, fun k hk => ?_⟩, ⟨_, rfl, rfl, rfl, rfl⟩⟩
  · simp [State.fbRead, Framebuffer.bytes]
  · simp [State.fbRead, Framebuffer.bytes, hk]

end Sys2Proof.Machine
end

section
/-! Proofs about the invariant: it holds at a launch, and every step and every move of the host keeps it
(10_state.md R17, R22, 60_exceptions.md R160, 70_reset_and_hazards.md R195, R201). -/

namespace Sys2Proof.Machine

/-! What an instruction keeps of the canonical stores and of the stack pointer -/

section
variable {i : Instr} {s t : State}

theorem exec_ram_wf (h : exec i s = .next t) (hs : s.ram.wf = true) : t.ram.wf = true := by
  by_cases heq : t.ram = s.ram
  · rw [heq, hs]
  · rcases (exec_writeColumns h).ram heq with ⟨nnn, rfl⟩ | ⟨x, rfl⟩ | ⟨x, rfl⟩
    · rcases trap_or_completion h with ⟨-, rfl⟩ | ⟨-, rfl⟩
      · exact hs
      · exact Memory.wf_writeWord hs _ _
    · rcases withDataRange_next h with ⟨-, rfl⟩ | ⟨-, rfl⟩
      · exact Memory.wf_writeBytes hs _ _
      · exact hs
    · rcases withDataRange_next h with ⟨-, rfl⟩ | ⟨-, rfl⟩
      · exact Memory.wf_writeBytes hs _ _
      · exact hs

theorem exec_vram_wf (h : exec i s = .next t) (hs : s.vram.wf = true) : t.vram.wf = true := by
  by_cases heq : t.vram = s.vram
  · rw [heq, hs]
  · rcases (exec_writeColumns h).vram heq with rfl | ⟨x, y, n, rfl⟩
    · cases h
      rfl
    · rcases trap_or_completion h with ⟨-, rfl⟩ | ⟨-, rfl⟩
      · exact hs
      · exact drawRows_wf _ hs _ _

/-- A legal depth is at most 128, so the count of one more entry does not wrap (R6). -/
theorem sp_succ_toNat (hp : s.params.wf = true) (hsp : s.sp.toNat < s.params.stackDepth) :
    (s.sp + 1).toNat = s.sp.toNat + 1 := by
  simp only [Params.wf, Bool.and_eq_true, decide_eq_true_eq] at hp
  obtain ⟨⟨-, hdepth⟩, -⟩ := hp
  bv_omega

theorem sp_pred_toNat (hsp : s.sp.toNat ≠ 0) : (s.sp - 1).toNat = s.sp.toNat - 1 := by
  bv_omega

theorem exec_sp_le (h : exec i s = .next t) (hp : s.params.wf = true) (hs : s.sp.toNat ≤ s.params.stackDepth) :
    t.sp.toNat ≤ s.params.stackDepth := by
  by_cases heq : t.sp = s.sp
  · rwa [heq]
  · rcases (exec_writeColumns h).sp heq with rfl | ⟨nnn, rfl⟩
    · rcases trap_or_completion h with ⟨-, rfl⟩ | ⟨hne, rfl⟩
      · exact hs
      · exact (sp_pred_toNat hne).trans_le (by omega)
    · rcases trap_or_completion h with ⟨-, rfl⟩ | ⟨hne, rfl⟩
      · exact hs
      · exact (sp_succ_toNat hp (by omega)).trans_le (by omega)

end

/-! One step (R80) -/

theorem atSelfJump_congr {s t : State} (hpc : t.pc = s.pc) (hram : t.ram = s.ram) : t.atSelfJump ↔ s.atSelfJump := by
  simp only [State.atSelfJump, State.fetchable, hpc, hram]

/-- A fault taken by a running machine keeps the invariant, given a datum only where the kind has one (R160). -/
theorem raise_inv {s : State} (hs : s.Inv) (hr : s.running) {k : ErrorKind} {info : Word}
    (hinfo : info = 0 ∨ k = .fetchMisaligned ∨ k = .memoryBounds ∨ k = .decodeError) : (s.raise k info).Inv where
  params_wf := hs.params_wf
  ram_wf := hs.ram_wf
  vram_wf := hs.vram_wf
  sp_le := hs.sp_le
  code_le := (code_range k).2
  info_zero := by
    rcases hinfo with rfl | rfl | rfl | rfl
    · exact fun _ => rfl
    · exact fun h => absurd h (by simp [ErrorKind.code])
    · exact fun h => absurd h (by simp [ErrorKind.code])
    · exact fun h => absurd h (by simp [ErrorKind.code])
  one_end := fun hterm => absurd (hr.1.symm.trans hterm) Bool.false_ne_true
  self_jump := fun hterm => absurd (hr.1.symm.trans hterm) Bool.false_ne_true

theorem faultSite_datum {i : Instr} {s : State} {k : ErrorKind} {info : Word} (h : faultSite i s k info) :
    info = 0 ∨ k = .memoryBounds := by
  cases i with
  | call | ret =>
    obtain ⟨-, -, rfl⟩ := h
    exact .inl rfl
  | drw | ldBcd | storeRegs | loadRegs =>
    obtain ⟨-, rfl, -⟩ := h
    exact .inr rfl
  | _ => exact h.elim

/-- A jump that halts the machine leaves it on that jump (R83, R201). -/
theorem exec_atSelfJump {i : Instr} {s t : State} (hr : s.running) (hs : s.fetchable)
    (hd : decode (s.ram.readWord s.pc.toNat) = .ok i) (h : exec i s = .next t) (hterm : t.terminated = true) :
    t.atSelfJump := by
  rw [exec_terminated h, terminatedAfter_iff hr.1] at hterm
  obtain ⟨nnn, rfl, hself⟩ := hterm
  cases h
  refine (atSelfJump_congr ?_ ?_).mpr ((atSelfJump_iff hs hd).mpr ⟨nnn, rfl, hself⟩)
  · exact hself
  · rfl

theorem exec_inv {i : Instr} {s t : State} (hs : s.Inv) (hr : s.running) (hfetch : s.fetchable)
    (hd : decode (s.ram.readWord s.pc.toNat) = .ok i) (h : exec i s = .next t) : t.Inv := by
  rcases exec_cases h with ⟨k, info, hsite, rfl⟩ | hdone
  · exact raise_inv hs hr ((faultSite_datum hsite).imp_right fun hk => .inr (.inl hk))
  · have herr : t.err = 0 := hdone.err.trans hr.2
    exact {
      params_wf := hdone.params ▸ hs.params_wf
      ram_wf := exec_ram_wf h hs.ram_wf
      vram_wf := exec_vram_wf h hs.vram_wf
      sp_le := hdone.params ▸ exec_sp_le h hs.params_wf hs.sp_le
      code_le := by simp [herr]
      info_zero := fun _ => hdone.errInfo.trans (hs.info_zero (.inl hr.2))
      one_end := fun _ => herr
      self_jump := exec_atSelfJump hr hfetch hd h }

/-- Settles O55: a step takes a fault of the fetch or the decoder, or runs the instruction at `pc`. -/
theorem stepKeepsTheInvariant : Obligations.StepKeepsTheInvariant := by
  intro s t hs h
  obtain ⟨hr, hcases⟩ := step_cases h
  rcases hcases with ⟨-, rfl⟩ | ⟨-, -, rfl⟩ | ⟨-, -, rfl⟩ | ⟨hfetch, i, hd, hexec⟩
  · exact raise_inv hs hr (.inr (.inl rfl))
  · exact raise_inv hs hr (.inr (.inr (.inl rfl)))
  · exact raise_inv hs hr (.inr (.inr (.inr rfl)))
  · exact exec_inv hs hr hfetch hd hexec

/-! The host's moves (R195) -/

theorem launch_inv {params : Params} (hp : params.wf = true) (ramInit : List Host.Cell) (draws : Nat) :
    (launch params ramInit draws).Inv where
  params_wf := hp
  ram_wf := launchRam_wf ramInit rfl
  vram_wf := rfl
  sp_le := Nat.zero_le _
  code_le := Nat.zero_le _
  info_zero := fun _ => rfl
  one_end := fun _ => rfl
  self_jump := fun hterm => absurd hterm Bool.false_ne_true

theorem launch_running (params : Params) (ramInit : List Host.Cell) (draws : Nat) :
    (launch params ramInit draws).running :=
  ⟨rfl, rfl⟩

/-- Settles O54: the reset state is a launch with the default parameters. -/
theorem resetHasTheInvariant : Obligations.ResetHasTheInvariant :=
  launch_inv (params := defaultParams) (by decide) [] 0

section
variable {s : State}

theorem load_inv (hs : s.Inv) (hr : s.running) (bytes : List Byte) : (s.load bytes).Inv := by
  unfold State.load
  split
  · exact raise_inv hs hr (.inl rfl)
  · exact { hs with
      ram_wf := Memory.wf_writeBytes hs.ram_wf _ _
      self_jump := fun hterm => absurd (hr.1.symm.trans hterm) Bool.false_ne_true }

theorem hostStep_inv (hs : s.Inv) : (hostStep s).2.Inv := by
  by_cases hr : s.running
  · obtain ⟨t, ht⟩ := exists_step_eq_next hr
    rw [hostStep_of_step ht]
    exact stepKeepsTheInvariant s t hs ht
  · rwa [hostStep_of_not_running hr]

theorem run_inv (hs : s.Inv) (n : Nat) : (run n s).2.Inv := by
  induction n generalizing s with
  | zero => rwa [run_zero]
  | succ n ih =>
    by_cases hr : s.running
    · rw [run_succ_of_running hr]
      exact ih (hostStep_inv hs)
    · rwa [run_of_not_running hr]

theorem timerTick_inv (hs : s.Inv) : s.timerTick.Inv := { hs with }

theorem dirtyAck_inv (hs : s.Inv) : s.dirtyAck.Inv := { hs with }

end

theorem perform_inv {a : Action} {h h' : Session} (hs : h.Inv) (hp : perform a h = .next h') : h'.Inv := by
  obtain ⟨hinv, hport⟩ := hs
  cases a with
  | reset ramInit =>
    cases hp
    exact ⟨launch_inv hinv.params_wf _ _, fun _ => launch_running _ _ _⟩
  | load bytes =>
    rw [perform] at hp
    split at hp
    · next hmay =>
      cases hp
      exact ⟨load_inv hinv (hport hmay) bytes, fun hopen => absurd hopen Bool.false_ne_true⟩
    · cases hp
  | step =>
    cases hp
    exact ⟨hostStep_inv hinv, fun hopen => absurd hopen Bool.false_ne_true⟩
  | runFor n =>
    cases hp
    refine ⟨run_inv hinv n, fun hopen => ?_⟩
    obtain ⟨hmay, hn⟩ : h.mayLoad = true ∧ n = 0 := by simpa using hopen
    rw [hn, run_zero]
    exact hport hmay
  | timerTick =>
    cases hp
    exact ⟨timerTick_inv hinv, hport⟩
  | dirtyAck =>
    cases hp
    exact ⟨dirtyAck_inv hinv, hport⟩

theorem performAll_inv {as : List Action} {h h' : Session} (hs : h.Inv) (hp : performAll as h = .next h') :
    h'.Inv := by
  induction as generalizing h with
  | nil =>
    cases hp
    exact hs
  | cons a as ih =>
    rw [performAll] at hp
    split at hp
    · next hfirst => exact ih (perform_inv hs hfirst) hp
    · cases hp
    · cases hp

/-- Settles O56: each move keeps the invariant, and a machine that has it and is terminated has no fault and stands on
its self-jump. -/
theorem everyScheduleKeepsTheInvariant : Obligations.EveryScheduleKeepsTheInvariant := by
  refine ⟨fun params ramInit draws hp => ⟨launch_inv hp ramInit draws, fun _ => launch_running _ _ _⟩,
    fun as h h' hs hp => ?_⟩
  obtain ⟨hmachine, hport⟩ := performAll_inv hs hp
  exact ⟨⟨hmachine, hport⟩, fun hterm => ⟨⟨hterm, hmachine.one_end hterm⟩, hmachine.self_jump hterm⟩⟩

end Sys2Proof.Machine
end

section
/-! Proofs about the instructions on registers (41_skips.md, 42_alu.md), on `I` (43_index_memory.md R130 to R132), the
key stubs (45_keys_timers.md) and JP V0 (40_control_flow.md R84): what each operation leaves unchanged, said once. -/

namespace Sys2Proof.Machine

/-! Frames -/

theorem sameButRegs_setPc (s : State) (w : Word) : sameButRegs [] s (s.setPc w) :=
  ⟨fun _ _ => rfl, rfl, ⟨rfl, rfl⟩, rfl, fun _ => rfl, ⟨rfl, rfl⟩, ⟨rfl, rfl, rfl⟩, ⟨rfl, rfl⟩⟩

theorem sameButIndex_setI_advance (s : State) (w : Word) : sameButIndex s (s.setI w).advance :=
  ⟨fun _ _ => rfl, ⟨rfl, rfl⟩, rfl, fun _ => rfl, ⟨rfl, rfl⟩, ⟨rfl, rfl, rfl⟩, ⟨rfl, rfl⟩⟩

/-- What the instructions that write a result and a flag do: the flag is over the result (R113). -/
theorem writeResultThenFlag_effect (x : RegIx) (r : Byte) (flag : Bool) (s : State) :
    ∃ t, writeResultThenFlag x r flag s = .next t ∧ (x ≠ vf → t.getV x = r) ∧ t.getV vf = flagByte flag ∧
      t.pc = s.pc + 2 ∧ sameButRegs [x, vf] s t := by
  have hresult : x ≠ vf → ((s.setV x r).setV vf (flagByte flag)).getV x = r := fun hx =>
    (getV_setV_ne _ hx _).trans (getV_setV_same s x r)
  have hregs : sameRegsBut [x, vf] s ((s.setV x r).setV vf (flagByte flag)).advance := fun k hk => by
    obtain ⟨hx, hf⟩ : k ≠ x ∧ k ≠ vf := by simpa using hk
    exact (getV_setV_ne _ hf _).trans (getV_setV_ne s hx r)
  exact ⟨_, rfl, hresult, getV_setV_same _ vf _, rfl, hregs, rfl, ⟨rfl, rfl⟩, rfl, fun _ => rfl, ⟨rfl, rfl⟩,
    ⟨rfl, rfl, rfl⟩, ⟨rfl, rfl⟩⟩

/-! Skips (R100 to R104) -/

/-- A skip moves `pc` only, and does so alike whatever RAM holds. -/
theorem skipIf_effect (c : Bool) (s : State) :
    ∃ t, skipIf c s = .next t ∧ t.pc = (if c then s.pc + 4 else s.pc + 2) ∧ sameButRegs [] s t ∧
      ∀ m, skipIf c (s.setRam m) = .next (t.setRam m) :=
  ⟨_, skipIf_eq c s, rfl, sameButRegs_setPc s _, fun m => skipIf_eq c (s.setRam m)⟩

theorem skipIf_beq_effect (a b : Byte) (s : State) :
    ∃ t, skipIf (a == b) s = .next t ∧ t.pc = (if a = b then s.pc + 4 else s.pc + 2) ∧ sameButRegs [] s t ∧
      ∀ m, skipIf (a == b) (s.setRam m) = .next (t.setRam m) := by
  simpa using skipIf_effect (a == b) s

theorem skipIf_bne_effect (a b : Byte) (s : State) :
    ∃ t, skipIf (a != b) s = .next t ∧ t.pc = (if a = b then s.pc + 2 else s.pc + 4) ∧ sameButRegs [] s t ∧
      ∀ m, skipIf (a != b) (s.setRam m) = .next (t.setRam m) := by
  simpa using skipIf_effect (a != b) s

/-- Words of families 5 and 9 with a last nibble other than 0 are illegal (R102, R103). -/
theorem decode_register_skip_illegal (x y d : Nibble) (hd : d ≠ 0) :
    decode (0x5#4 ++ x ++ y ++ d) = .error (.noMatch (0x5#4 ++ x ++ y ++ d)) ∧
      decode (0x9#4 ++ x ++ y ++ d) = .error (.noMatch (0x9#4 ++ x ++ y ++ d)) := by
  have hd' : ¬ d = 0#4 := hd
  rw [decoderIsTheOpcodeMapByTopNibble, decoderIsTheOpcodeMapByTopNibble]
  constructor <;> simp [mapByTopNibble, hd']

/-- Settles O20: each comparison is a skip of `skipIf_beq_effect` or `skipIf_bne_effect`. -/
theorem skipsStepOverTheNextInstruction : Obligations.SkipsStepOverTheNextInstruction := fun x y kk s =>
  ⟨⟨decode_encode (.seImm x kk), decode_encode (.sneImm x kk), decode_encode (.seReg x y), decode_encode (.sneReg x y)⟩,
    decode_register_skip_illegal x y, skipIf_beq_effect (s.getV x) kk s, skipIf_bne_effect (s.getV x) kk s,
    skipIf_beq_effect (s.getV x) (s.getV y) s, skipIf_bne_effect (s.getV x) (s.getV y) s⟩

/-- Settles O16: the sum of a 12-bit address and a byte does not wrap. -/
theorem jumpWithOffsetAddsV0 : Obligations.JumpWithOffsetAddsV0 := by
  intro nnn s
  refine ⟨decode_encode (.jpV0 nnn), _, rfl, ?_, sameButRegs_setPc s _⟩
  rw [setPc_pc, BitVec.toNat_add, BitVec.toNat_setWidth, BitVec.toNat_setWidth]
  omega

/-! Loads, arithmetic and logic without a flag (R110 to R116) -/

/-- Settles O21: all three are register writes, by `writeReg_effect`. -/
theorem loadsAndImmediateAdd : Obligations.LoadsAndImmediateAdd := by
  intro x y kk s
  refine ⟨⟨decode_encode (.ldImm x kk), decode_encode (.addImm x kk), decode_encode (.ldReg x y)⟩,
    writeReg_effect x kk s, ?addImm, writeReg_effect x (s.getV y) s⟩
  case addImm =>
    obtain ⟨t, ht, hx, hrest⟩ := writeReg_effect x (s.getV x + kk) s
    exact ⟨t, ht, by rw [hx, BitVec.toNat_add], hrest⟩

/-- Settles O22: all three are register writes, and the bits are those of the word operation. -/
theorem logicWorksBitByBit : Obligations.LogicWorksBitByBit := by
  intro x y s
  refine ⟨⟨decode_encode (.orReg x y), decode_encode (.andReg x y), decode_encode (.xorReg x y)⟩, ?or, ?and, ?xor⟩
  case or =>
    obtain ⟨t, ht, hx, hrest⟩ := writeReg_effect x (s.getV x ||| s.getV y) s
    exact ⟨t, ht, fun k => by rw [hx, BitVec.getLsbD_or], hrest⟩
  case and =>
    obtain ⟨t, ht, hx, hrest⟩ := writeReg_effect x (s.getV x &&& s.getV y) s
    exact ⟨t, ht, fun k => by rw [hx, BitVec.getLsbD_and], hrest⟩
  case xor =>
    obtain ⟨t, ht, hx, hrest⟩ := writeReg_effect x (s.getV x ^^^ s.getV y) s
    exact ⟨t, ht, fun k => by rw [hx, BitVec.getLsbD_xor, Bool.bne_eq_xor], hrest⟩

/-! Arithmetic and shifts with a flag (R117 to R121) -/

theorem flagByte_decide (p : Prop) [Decidable p] : flagByte (decide p) = if p then 1 else 0 := by
  by_cases hp : p <;> simp [hp]

/-- Settles O23: the sum wraps as addition of bytes does, and the flag is the comparison of `carryOut`. -/
theorem addReportsTheCarryOut : Obligations.AddReportsTheCarryOut := by
  intro x y s
  obtain ⟨t, ht, hx, hf, hrest⟩ :=
    writeResultThenFlag_effect x (s.getV x + s.getV y) (carryOut (s.getV x) (s.getV y)) s
  refine ⟨decode_encode (.addReg x y), t, ht, fun hne => ?_, ?_, hrest⟩
  · rw [hx hne, BitVec.toNat_add]
  · rw [hf, carryOut, flagByte_decide]

theorem sub_toNat_int (a b : Byte) : ((a - b).toNat : Int) = ((a.toNat : Int) - (b.toNat : Int)) % 256 := by
  rw [BitVec.toNat_sub]
  have hb := b.isLt
  omega

/-- What SUB and SUBN do, with the operands in the order of the difference. -/
theorem subtract_effect (x : RegIx) (a b : Byte) (s : State) :
    ∃ t, writeResultThenFlag x (a - b) (notBorrow a b) s = .next t ∧
      (x ≠ vf → ((t.getV x).toNat : Int) = ((a.toNat : Int) - (b.toNat : Int)) % 256) ∧
      t.getV vf = (if a.toNat > b.toNat then 1 else 0) ∧ t.pc = s.pc + 2 ∧ sameButRegs [x, vf] s t := by
  obtain ⟨t, ht, hx, hf, hrest⟩ := writeResultThenFlag_effect x (a - b) (notBorrow a b) s
  refine ⟨t, ht, fun hne => ?_, ?_, hrest⟩
  · rw [hx hne, sub_toNat_int]
  · rw [hf, notBorrow, flagByte_decide]

/-- Settles O24: both by `subtract_effect`, with the operands exchanged for SUBN. -/
theorem subtractionsReportNoBorrow : Obligations.SubtractionsReportNoBorrow := fun x y s =>
  ⟨⟨decode_encode (.subReg x y), decode_encode (.subnReg x y)⟩, subtract_effect x (s.getV x) (s.getV y) s,
    subtract_effect x (s.getV y) (s.getV x) s⟩

theorem flagByte_toNat (b : Bool) : (flagByte b).toNat = b.toNat := by cases b <;> rfl

theorem flagByte_shiftedOutRight (a : Byte) : flagByte (shiftedOutRight a) = BitVec.ofNat 8 (a.toNat % 2) := by
  apply BitVec.eq_of_toNat_eq
  rw [flagByte_toNat, shiftedOutRight, BitVec.getLsbD, Nat.testBit_zero, BitVec.toNat_ofNat]
  rcases Nat.mod_two_eq_zero_or_one a.toNat with h | h <;> simp [h]

theorem flagByte_shiftedOutLeft (a : Byte) : flagByte (shiftedOutLeft a) = BitVec.ofNat 8 (a.toNat / 128) := by
  have ha := a.isLt
  apply BitVec.eq_of_toNat_eq
  rw [flagByte_toNat, shiftedOutLeft, BitVec.getLsbD, Nat.toNat_testBit, BitVec.toNat_ofNat]
  omega

/-- Settles O25: neither meaning reads `y`. -/
theorem shiftsReportTheBitShiftedOut : Obligations.ShiftsReportTheBitShiftedOut := by
  intro x y s
  refine ⟨⟨decode_encode (.shr x y), decode_encode (.shl x y)⟩, fun _ => ⟨rfl, rfl⟩, ?shr, ?shl⟩
  case shr =>
    obtain ⟨t, ht, hx, hf, hrest⟩ :=
      writeResultThenFlag_effect x (s.getV x >>> 1) (shiftedOutRight (s.getV x)) s
    refine ⟨t, ht, fun hne => ?_, hf.trans (flagByte_shiftedOutRight _), hrest⟩
    rw [hx hne, BitVec.toNat_ushiftRight, Nat.shiftRight_eq_div_pow, Nat.pow_one]
  case shl =>
    obtain ⟨t, ht, hx, hf, hrest⟩ :=
      writeResultThenFlag_effect x (s.getV x <<< 1) (shiftedOutLeft (s.getV x)) s
    refine ⟨t, ht, fun hne => ?_, hf.trans (flagByte_shiftedOutLeft _), hrest⟩
    rw [hx hne, BitVec.toNat_shiftLeft, Nat.shiftLeft_eq, Nat.pow_one, Nat.mul_comm]

/-! Random (R122) -/

theorem and_and_not_self (r kk : Byte) : r &&& kk &&& ~~~kk = 0 := by
  apply BitVec.eq_of_getLsbD_eq
  intro k hk
  simp [hk]

/-- Settles O26: whatever byte is drawn, `V[x]` is that byte under the mask. -/
theorem randomStaysUnderTheMask : Obligations.RandomStaysUnderTheMask := by
  intro x kk s
  have hx : ((s.setV x (Config.draw8 s.draws &&& kk)).drawn).advance.getV x = Config.draw8 s.draws &&& kk :=
    getV_setV_same s x _
  refine ⟨decode_encode (.rnd x kk), _, rfl, ⟨_, hx⟩, ?_, fun hkk => ?_, rfl, fun r hr => ?_, rfl, ⟨rfl, rfl⟩, rfl,
    fun _ => rfl, ⟨rfl, rfl⟩, ⟨rfl, rfl, rfl⟩, rfl⟩
  · rw [hx, and_and_not_self]
  · subst hkk
    exact hx.trans BitVec.and_zero
  · exact getV_setV_ne s (mt List.mem_singleton.mpr hr) _

/-! The index register (R130 to R132) -/

theorem glyphAddress_toNat (b : Byte) : (glyphAddress b).toNat = 0x100 + 5 * (b.toNat % 16) := by
  simp only [glyphAddress, BitVec.toNat_add, BitVec.toNat_mul, BitVec.toNat_setWidth, BitVec.extractLsb'_toNat,
    BitVec.ofNat_eq_ofNat, BitVec.toNat_ofNat, Nat.shiftRight_zero]
  omega

/-- Settles O28: each writes `I` and advances. -/
theorem indexLoadsAndAdd : Obligations.IndexLoadsAndAdd := by
  intro x nnn s
  refine ⟨⟨decode_encode (.ldI nnn), decode_encode (.addI x), decode_encode (.ldFont x)⟩, ?ldI, ?addI, ?ldFont⟩
  case ldI =>
    refine ⟨_, rfl, ?_, rfl, sameButIndex_setI_advance s _⟩
    rw [advance_i, setI_i, BitVec.toNat_setWidth]
    omega
  case addI =>
    refine ⟨_, rfl, ?_, rfl, sameButIndex_setI_advance s _⟩
    rw [advance_i, setI_i, BitVec.toNat_add, BitVec.toNat_setWidth]
    omega
  case ldFont => exact ⟨_, rfl, glyphAddress_toNat _, rfl, sameButIndex_setI_advance s _⟩

/-! CLS and the key stubs (R140, R150 to R152) -/

/-- Settles O34: an empty store reads as 0 everywhere. -/
theorem clearBlanksTheDisplay : Obligations.ClearBlanksTheDisplay := fun _ =>
  ⟨decode_encode .cls, _, rfl, Framebuffer.read_nil, rfl, rfl, fun _ _ => rfl, rfl, ⟨rfl, rfl⟩, rfl, fun _ => rfl,
    ⟨rfl, rfl, rfl⟩, ⟨rfl, rfl⟩⟩

/-- Settles O40: the skips only advance, and the wait is a register write of 0. -/
theorem keyInstructionsAreStubs : Obligations.KeyInstructionsAreStubs := fun x s =>
  ⟨⟨decode_encode (.skp x), decode_encode (.sknp x), decode_encode (.ldKey x)⟩,
    ⟨_, rfl, rfl, sameButRegs_setPc s _⟩, ⟨_, rfl, rfl, sameButRegs_setPc s _⟩, writeReg_effect x 0 s⟩

end Sys2Proof.Machine
end

section
/-! Proofs about RAM: the stack (40_control_flow.md R85, R86), the data accesses at `I` (43_index_memory.md R133 to
R136), and a store over the next instruction (20_memory.md R54). -/

namespace Sys2Proof.Machine

/-! The stack (R85, R86) -/

section
variable {m : Memory} {a : Nat}

theorem read_writeWord_hi (hm : m.wf = true) (ha : a + 2 ≤ Config.ramSize) (w : Word) :
    (m.writeWord a w).read a = w.extractLsb' 8 8 :=
  Memory.read_writeBytes_in hm (bs := [w.extractLsb' 8 8, w.extractLsb' 0 8]) (k := 0) Nat.two_pos ha

theorem read_writeWord_lo (hm : m.wf = true) (ha : a + 2 ≤ Config.ramSize) (w : Word) :
    (m.writeWord a w).read (a + 1) = w.extractLsb' 0 8 :=
  Memory.read_writeBytes_in hm (bs := [w.extractLsb' 8 8, w.extractLsb' 0 8]) (k := 1) Nat.one_lt_two ha

theorem read_writeWord_out {a' : Nat} (w : Word) (h : ¬ (a ≤ a' ∧ a' < a + 2)) :
    (m.writeWord a w).read a' = m.read a' :=
  Memory.read_writeBytes_out m _ h

end

/-- Below the depth the next entry lies in RAM. -/
theorem stackAddr_in_ram {s : State} (hp : s.params.wf = true) (hsp : s.sp.toNat < s.params.stackDepth) :
    stackAddr s s.sp.toNat + 2 ≤ Config.ramSize :=
  (stackAddr_lt hp hsp).trans (by decide)

theorem exec_call_of_room {s : State} (nnn : Addr12) (hsp : s.sp.toNat < s.params.stackDepth) :
    exec (.call nnn) s = .next ((s.push (s.pc + 2)).setPc (zext16 nnn)) :=
  if_neg hsp.ne

theorem exec_ret_of_entry {s : State} (hsp : s.sp.toNat ≠ 0) : exec .ret s = .next (s.pop.setPc s.top) :=
  if_neg hsp

/-- Settles O17: full by its fault site; below the depth the entry lies in RAM and its two bytes are the word pushed. -/
theorem callPushesTheReturnAddress : Obligations.CallPushesTheReturnAddress := by
  intro nnn s
  refine ⟨decode_encode (.call nnn), fun hfull => ?_, fun hp hm hsp => ?_⟩
  · exact ⟨_, exec_of_faultSite ⟨hfull, rfl, rfl⟩, rfl⟩
  · have hin := stackAddr_in_ram hp hsp
    exact ⟨_, exec_call_of_room nnn hsp, rfl, sp_succ_toNat hp hsp, read_writeWord_hi hm hin _,
      read_writeWord_lo hm hin _, fun _ => read_writeWord_out _, fun _ _ => rfl, rfl, ⟨rfl, rfl⟩, ⟨rfl, rfl⟩,
      ⟨rfl, rfl, rfl⟩, ⟨rfl, rfl⟩⟩

/-- Settles O18: empty by its fault site; otherwise the entry is read and only `SP` and `pc` change. -/
theorem returnPopsTheStackInRam : Obligations.ReturnPopsTheStackInRam := by
  intro s
  refine ⟨decode_encode .ret, fun hempty => ?_, fun hne => ?_⟩
  · have hsp : s.sp.toNat = 0 := by simp [hempty]
    exact ⟨_, exec_of_faultSite (i := .ret) ⟨hsp, rfl, rfl⟩, rfl⟩
  · have hsp : s.sp.toNat ≠ 0 := by bv_omega
    exact ⟨_, exec_ret_of_entry hsp, rfl, sp_pred_toNat hsp, fun _ => rfl, fun _ _ => rfl, rfl, ⟨rfl, rfl⟩, ⟨rfl, rfl⟩,
      ⟨rfl, rfl, rfl⟩, ⟨rfl, rfl⟩⟩

theorem readWord_congr {m m' : Memory} {a : Nat} (h : ∀ b, a ≤ b → b < a + 2 → m'.read b = m.read b) :
    m'.readWord a = m.readWord a := by
  rw [Memory.readWord, Memory.readWord, h a (by omega) (by omega), h (a + 1) (by omega) (by omega)]

/-- Settles O19: the entry read is the one the CALL wrote, and it holds the CALL's `pc + 2`. -/
theorem returnMatchesItsCall : Obligations.ReturnMatchesItsCall := by
  intro nnn s t u hp hm hsp hcall hparams hspu hentry
  cases (exec_call_of_room nnn hsp).symm.trans hcall
  have hdepth : u.sp.toNat = s.sp.toNat + 1 := by
    rw [hspu]
    exact sp_succ_toNat hp hsp
  have haddr : stackAddr u (u.sp.toNat - 1) = stackAddr s s.sp.toNat := by
    rw [hdepth, Nat.add_sub_cancel, stackAddr, hparams]
    rfl
  have htop : u.top = s.pc + 2 := by
    rw [State.top, haddr, readWord_congr hentry]
    exact Memory.readWord_writeWord hm (stackAddr_in_ram hp hsp) _
  have hspw : u.sp - 1 = s.sp := by
    rw [hspu]
    exact BitVec.add_sub_cancel s.sp 1
  exact ⟨_, exec_ret_of_entry (by omega), htop, hspw, fun _ _ => rfl, fun _ => rfl⟩

/-! Stores at `I` (R133, R134) -/

/-- With its range in RAM a store at `I` writes its bytes in order and leaves everything else. -/
theorem storeAtI_effect {s : State} (bs : List Byte) (hm : s.ram.wf = true)
    (hin : s.i.toNat + bs.length ≤ Config.ramSize) :
    ∃ t, storeAtI bs s = .next t ∧ (∀ k, (hk : k < bs.length) → t.ram.read (s.i.toNat + k) = bs[k]) ∧
      t.pc = s.pc + 2 ∧ sameButRam (effectiveAddress s 0) bs.length s t :=
  ⟨_, withDataRange_ok hin, fun _ hk => Memory.read_writeBytes_in hm hk hin, rfl, fun _ _ => rfl, rfl, ⟨rfl, rfl⟩, rfl,
    fun _ hout => Memory.read_writeBytes_out _ bs hout, ⟨rfl, rfl⟩, ⟨rfl, rfl, rfl⟩, ⟨rfl, rfl⟩⟩

theorem bcd_digits_toNat (b : Byte) :
    (BitVec.ofNat 8 (b.toNat / 100)).toNat = b.toNat / 100 ∧
    (BitVec.ofNat 8 (b.toNat / 10 % 10)).toNat = b.toNat / 10 % 10 ∧
    (BitVec.ofNat 8 (b.toNat % 10)).toNat = b.toNat % 10 := by
  have hb := b.isLt
  simp only [BitVec.toNat_ofNat]
  omega

/-- Settles O29: the digits are bytes, and `storeAtI_effect` stores them in order. -/
theorem bcdStoresThreeDigits : Obligations.BcdStoresThreeDigits := by
  intro x s
  refine ⟨decode_encode (.ldBcd x), fun hout => ?_, fun hm hin => ?_⟩
  · exact ⟨_, exec_of_faultSite (i := .ldBcd x) ⟨hout, rfl, rfl⟩, rfl⟩
  · obtain ⟨t, ht, hread, hrest⟩ := storeAtI_effect (bcdDigits (s.getV x)) hm hin
    obtain ⟨h100, h10, h1⟩ := bcd_digits_toNat (s.getV x)
    have hread0 := hread 0 (Nat.succ_pos 2)
    have hread1 := hread 1 (Nat.succ_lt_succ Nat.two_pos)
    have hread2 := hread 2 (Nat.lt_succ_self 2)
    exact ⟨t, ht, (congrArg BitVec.toNat hread0).trans h100, (congrArg BitVec.toNat hread1).trans h10,
      (congrArg BitVec.toNat hread2).trans h1, hrest⟩

theorem length_regsUpTo (s : State) (x : RegIx) : (s.regsUpTo x).length = x.toNat + 1 := length_regsFrom s _ _

theorem getElem_regsUpTo (s : State) (x r : RegIx) (h : r.toNat < (s.regsUpTo x).length) :
    (s.regsUpTo x)[r.toNat] = s.getV r := by
  have hk := getElem_regsFrom s 0 (x.toNat + 1) r.toNat h
  rw [Nat.zero_add, BitVec.ofNat_toNat, BitVec.setWidth_eq] at hk
  exact hk

/-- The block store in the words of R134: register `r` goes to `I + r`. -/
theorem exec_storeRegs_effect {s : State} (x : RegIx) (hm : s.ram.wf = true)
    (hin : s.i.toNat + x.toNat + 1 ≤ Config.ramSize) :
    ∃ t, exec (.storeRegs x) s = .next t ∧
      (∀ r : RegIx, r.toNat ≤ x.toNat → t.ram.read (s.i.toNat + r.toNat) = s.getV r) ∧
      t.pc = s.pc + 2 ∧ sameButRam (effectiveAddress s 0) (x.toNat + 1) s t := by
  have hlen := length_regsUpTo s x
  obtain ⟨t, ht, hread, hpc, hframe⟩ := storeAtI_effect (s.regsUpTo x) hm (by omega)
  rw [hlen] at hframe
  exact ⟨t, ht, fun r hr => (hread r.toNat (by omega)).trans (getElem_regsUpTo s x r (by omega)), hpc, hframe⟩

/-- Settles O30: by its fault site and `exec_storeRegs_effect`. -/
theorem blockStoreCopiesRegistersToRam : Obligations.BlockStoreCopiesRegistersToRam := fun x _ =>
  ⟨decode_encode (.storeRegs x), fun hout => ⟨_, exec_of_faultSite (i := .storeRegs x) ⟨hout, rfl, rfl⟩, rfl⟩,
    exec_storeRegs_effect x⟩

/-! The block load (R135) -/

theorem exec_loadRegs_effect {s : State} (x : RegIx) (hin : s.i.toNat + x.toNat + 1 ≤ Config.ramSize) :
    ∃ t, exec (.loadRegs x) s = .next t ∧
      (∀ r : RegIx, r.toNat ≤ x.toNat → t.getV r = s.ram.read (s.i.toNat + r.toNat)) ∧
      (∀ r : RegIx, x.toNat < r.toNat → t.getV r = s.getV r) ∧
      t.pc = s.pc + 2 ∧ t.i = s.i ∧ sameTimers s t ∧ t.sp = s.sp ∧ sameRam s t ∧ sameDisplay s t ∧
      sameStatus s t ∧ sameModel s t := by
  have hlen := Memory.length_readBytes s.ram (effectiveAddress s 0) (x.toNat + 1)
  have hexec : exec (.loadRegs x) s =
      .next (s.loadFrom 0 (s.ram.readBytes (effectiveAddress s 0) (x.toNat + 1))).advance := withDataRange_ok hin
  refine ⟨_, hexec, fun r hr => ?_, fun r hr => loadFrom_getV_above hlen hr, ?_⟩
  · rw [advance_getV, loadFrom_getV _ _ _ (by omega), dif_pos (by omega), Memory.getElem_readBytes]
    rfl
  · rw [loadFrom_frame]
    exact ⟨rfl, rfl, ⟨rfl, rfl⟩, rfl, fun _ => rfl, ⟨rfl, rfl⟩, ⟨rfl, rfl, rfl⟩, ⟨rfl, rfl⟩⟩

/-- Settles O31: by its fault site and `exec_loadRegs_effect`. -/
theorem blockLoadCopiesRamToRegisters : Obligations.BlockLoadCopiesRamToRegisters := fun x _ =>
  ⟨decode_encode (.loadRegs x), fun hout => ⟨_, exec_of_faultSite (i := .loadRegs x) ⟨hout, rfl, rfl⟩, rfl⟩,
    exec_loadRegs_effect x⟩

/-- Settles O32: each register is loaded from the byte the store wrote for it. -/
theorem blockTransfersRoundTrip : Obligations.BlockTransfersRoundTrip := by
  intro x s t u hm hin hstore hram hi
  obtain ⟨t', ht', hstored, -, -, hti, -⟩ := exec_storeRegs_effect x hm hin
  cases ht'.symm.trans hstore
  have hi' : u.i = s.i := hi.trans hti
  obtain ⟨w, hw, hloaded, habove, -⟩ := exec_loadRegs_effect (s := u) x (by rwa [hi'])
  refine ⟨w, hw, fun r hr => ?_, habove⟩
  rw [hloaded r hr, hi', hram, hstored r hr]

/-- Settles O33: the step stores `V[0]` and `V[1]` at `pc + 2`, where the next fetch reads them. -/
theorem storedWordIsFetchedNext : Obligations.StoredWordIsFetchedNext := by
  intro x s t hm hr hs hd hx hi hin hstep
  rw [step_of_decode_ok hr hs hd] at hstep
  obtain ⟨t', ht', hstored, hpc, -, -, -, -, -, -, ⟨hterm, herr, -⟩, -⟩ := exec_storeRegs_effect x hm hin
  cases ht'.symm.trans hstep
  have hpc' : t.pc.toNat = s.i.toNat := by rw [hpc, hi]
  have hnext : s.i.toNat = s.pc.toNat + 2 := by
    rw [hi]
    exact pc_add_toNat hs (by decide)
  have hfetch : t.fetchable := by
    refine fetchable_of_even ?_ (by omega)
    have heven := (getLsbD_zero_eq_false_iff s.pc).mp hs.1
    exact (getLsbD_zero_eq_false_iff t.pc).mpr (by omega)
  refine ⟨hfetch, fun i hword => step_of_decode_ok ⟨hterm.trans hr.1, herr.trans hr.2⟩ hfetch ?_⟩
  have h0 := hstored 0 (Nat.zero_le _)
  have h1 := hstored 1 hx
  rw [hpc', Memory.readWord]
  exact (congrArg decode (congrArg₂ (· ++ ·) h0 h1)).trans hword

end Sys2Proof.Machine
end

section
/-! Proofs about memory as data (20_memory.md, log 13), and about the launch and the load (70_reset_and_hazards.md R190
to R196). -/

namespace Sys2Proof.Machine

/-! A canonical store is determined by its bytes (log 13) -/

section
variable {dflt : Nat → Byte} {size : Nat}

theorem cellsRead_head (a : Nat) (v : Byte) (m : Cells) : cellsRead dflt ((a, v) :: m) a = v := if_pos rfl

theorem cellsRead_tail {a b : Nat} (v : Byte) (m : Cells) (h : a ≠ b) :
    cellsRead dflt ((b, v) :: m) a = cellsRead dflt m a :=
  if_neg h

/-- What the canonical form says of the first cell. -/
theorem cellsWfFrom_cons {lo a : Nat} {v : Byte} {m : Cells} :
    cellsWfFrom dflt size lo ((a, v) :: m) = true ↔
      lo ≤ a ∧ a < size ∧ v ≠ dflt a ∧ cellsWfFrom dflt size (a + 1) m = true := by
  simp [cellsWfFrom, and_assoc]

/-- A listed address is the first at which the store is not its default. -/
theorem cells_head_le {lo lo' a b : Nat} {v w : Byte} {m m' : Cells}
    (hm : cellsWfFrom dflt size lo ((a, v) :: m) = true) (hm' : cellsWfFrom dflt size lo' ((b, w) :: m') = true)
    (hread : cellsRead dflt ((a, v) :: m) a = cellsRead dflt ((b, w) :: m') a) : b ≤ a := by
  obtain ⟨-, -, hv, -⟩ := cellsWfFrom_cons.mp hm
  obtain ⟨-, hb, hw, htail⟩ := cellsWfFrom_cons.mp hm'
  by_contra hlt
  have hbelow := cellsRead_below (cellsWfFrom_cons.mpr ⟨le_refl b, hb, hw, htail⟩) (Nat.not_le.mp hlt)
  rw [cellsRead_head, hbelow] at hread
  exact hv hread

theorem cells_ext {lo lo' : Nat} {m m' : Cells} (hm : cellsWfFrom dflt size lo m = true)
    (hm' : cellsWfFrom dflt size lo' m' = true) (hread : ∀ a, cellsRead dflt m a = cellsRead dflt m' a) : m = m' := by
  induction m generalizing lo lo' m' with
  | nil =>
    cases m' with
    | nil => rfl
    | cons c m' =>
      obtain ⟨-, -, hw, -⟩ := cellsWfFrom_cons.mp hm'
      exact absurd ((cellsRead_head _ _ _).symm.trans (hread c.1).symm) hw
  | cons c m ih =>
    obtain ⟨a, v⟩ := c
    obtain ⟨-, -, hv, htail⟩ := cellsWfFrom_cons.mp hm
    cases m' with
    | nil => exact absurd ((cellsRead_head _ _ _).symm.trans (hread a)) hv
    | cons c' m' =>
      obtain ⟨b, w⟩ := c'
      obtain ⟨-, -, -, htail'⟩ := cellsWfFrom_cons.mp hm'
      obtain rfl : a = b := le_antisymm (cells_head_le hm' hm (hread b).symm) (cells_head_le hm hm' (hread a))
      have hvw := hread a
      rw [cellsRead_head, cellsRead_head] at hvw
      have hrest : ∀ k, cellsRead dflt m k = cellsRead dflt m' k := by
        intro k
        by_cases hk : k = a
        · rw [hk, cellsRead_below htail (Nat.lt_succ_self a), cellsRead_below htail' (Nat.lt_succ_self a)]
        · have hk' := hread k
          rwa [cellsRead_tail _ _ hk, cellsRead_tail _ _ hk] at hk'
      rw [hvw, ih htail htail' hrest]

/-- It is enough to look inside the store. -/
theorem cells_ext_lt {m m' : Cells} (hm : cellsWfFrom dflt size 0 m = true) (hm' : cellsWfFrom dflt size 0 m' = true)
    (hread : ∀ a, a < size → cellsRead dflt m a = cellsRead dflt m' a) : m = m' := by
  refine cells_ext hm hm' fun a => ?_
  by_cases ha : a < size
  · exact hread a ha
  · rw [cellsRead_above hm (Nat.not_lt.mp ha), cellsRead_above hm' (Nat.not_lt.mp ha)]

end

/-- Every bit of VRAM is a pixel (R28). -/
theorem exists_pixel_of_bit {k j : Nat} (hk : k < Config.vramSize) (hj : j < 8) :
    ∃ cx cy, cx < 64 ∧ cy < 32 ∧ pixelByte cx cy = k ∧ pixelBit cx = j := by
  simp only [Config.vramSize] at hk
  refine ⟨8 * (k % 8) + (7 - j), k / 8, ?_⟩
  simp only [pixelByte, pixelBit]
  omega

theorem vram_read_eq_of_pixels {f f' : Framebuffer}
    (h : ∀ cx cy, cx < 64 → cy < 32 → f.pixel cx cy = f'.pixel cx cy) {k : Nat} (hk : k < Config.vramSize) :
    f.read k = f'.read k := by
  apply BitVec.eq_of_getLsbD_eq
  intro j hj
  obtain ⟨cx, cy, hx, hy, hbyte, hbit⟩ := exists_pixel_of_bit hk hj
  have hpixel := h cx cy hx hy
  rwa [Framebuffer.pixel, Framebuffer.pixel, hbyte, hbit] at hpixel

theorem vram_ext {f f' : Framebuffer} (hf : f.wf = true) (hf' : f'.wf = true)
    (h : ∀ cx cy, cx < 64 → cy < 32 → f.pixel cx cy = f'.pixel cx cy) : f = f' :=
  cells_ext_lt hf hf' fun _ hk => vram_read_eq_of_pixels h hk

/-- Settles O47: canonical cells are found again from what they read as; a byte of VRAM is eight pixels. -/
theorem canonicalStoresAreDeterminedByTheirBytes : Obligations.CanonicalStoresAreDeterminedByTheirBytes :=
  ⟨fun _ _ hm hm' => cells_ext_lt hm hm', fun _ _ => vram_ext⟩

/-! The launch (R29, R191) -/

/-- Whether an address is one the font occupies. -/
def inFont (a : Nat) : Prop := Config.fontBase ≤ a ∧ a < Config.fontBase + Config.fontSize

theorem launchRam_cons_font {a : Nat} (ha : inFont a) (v : Byte) (cells : List Host.Cell) (m : Memory) :
    launchRam ((a, v) :: cells) m = launchRam cells m :=
  if_pos ha

theorem launchRam_cons {a : Nat} (ha : ¬ inFont a) (v : Byte) (cells : List Host.Cell) (m : Memory) :
    launchRam ((a, v) :: cells) m = launchRam cells (m.write a v) :=
  if_neg ha

/-- A launch leaves the font. -/
theorem read_launchRam_font {a : Nat} (ha : inFont a) (cells : List Host.Cell) (m : Memory) :
    (launchRam cells m).read a = m.read a := by
  induction cells generalizing m with
  | nil => rfl
  | cons c cells ih =>
    obtain ⟨b, v⟩ := c
    by_cases hb : inFont b
    · rw [launchRam_cons_font hb, ih]
    · rw [launchRam_cons hb, ih, Memory.read_write_ne]
      rintro rfl
      exact hb ha

/-- With a byte for each address of a list, a launch puts it there outside the font; other addresses keep theirs. -/
theorem read_launchRam_map (init : Nat → Byte) {a : Nat} (hfont : ¬ inFont a) (ha : a < Config.ramSize)
    (addrs : List Nat) {m : Memory} (hm : m.wf = true) :
    (launchRam (addrs.map fun b => (b, init b)) m).read a = if a ∈ addrs then init a else m.read a := by
  induction addrs generalizing m with
  | nil => rfl
  | cons b addrs ih =>
    rw [List.map_cons]
    by_cases hb : inFont b
    · have hne : a ≠ b := by
        rintro rfl
        exact hfont hb
      rw [launchRam_cons_font hb, ih hm]
      simp [hne]
    · rw [launchRam_cons hb, ih (Memory.wf_write hm b _), Memory.read_write hm]
      by_cases hab : a = b
      · subst hab
        simp [ha]
      · simp [hab]

theorem read_nil_font {k : Nat} (hk : k < 80) : Memory.read [] (0x100 + k) = fontData.getD k 0 := by
  have hin : Config.fontBase ≤ 0x100 + k ∧ 0x100 + k < Config.fontBase + Config.fontSize := by
    simp only [Config.fontBase, Config.fontSize]
    omega
  have hoff : 0x100 + k - Config.fontBase = k := Nat.add_sub_cancel_left _ _
  rw [Memory.read, cellsRead, resetByte, if_pos hin, hoff]

/-! The load (R196) -/

theorem load_of_fits (s : State) {bytes : List Byte} (h : bytes.length ≤ 3584) :
    s.load bytes = s.setRam (s.ram.writeBytes Config.progBase bytes) :=
  if_neg (Nat.not_lt.mpr h)

theorem load_of_too_large (s : State) {bytes : List Byte} (h : 3584 < bytes.length) :
    s.load bytes = s.raise .loadTooLarge 0 :=
  if_pos h

theorem launched_of_fits (params : Params) (ramInit : List Host.Cell) (draws : Nat) {bytes : List Byte}
    (h : bytes.length ≤ 3584) : launched params ramInit draws bytes =
      (launch params ramInit draws).setRam ((launchRam ramInit []).writeBytes Config.progBase bytes) :=
  load_of_fits _ h

/-- A program of at most 3584 bytes from 0x200 on ends inside RAM. -/
theorem program_in_ram {n : Nat} (h : n ≤ 3584) : Config.progBase + n ≤ Config.ramSize := by
  simp only [Config.progBase, Config.ramSize]
  omega

theorem read_program {m : Memory} (hm : m.wf = true) {bytes : List Byte} (h : bytes.length ≤ 3584) {k : Nat}
    (hk : k < bytes.length) : (m.writeBytes Config.progBase bytes).read (0x200 + k) = bytes[k] :=
  Memory.read_writeBytes_in hm hk (program_in_ram h)

/-- Settles O49: the port's bit decides the move, and the length which of the two loads it is. -/
theorem loadCopiesTheProgramOrFails : Obligations.LoadCopiesTheProgramOrFails := by
  intro h bytes
  refine ⟨fun hclosed => ?_, fun hopen hlarge => ?_, fun hopen hfits hm => ?_⟩
  · simp [perform, hclosed]
  · refine ⟨_, if_pos hopen, rfl, ?_⟩
    exact load_of_too_large h.machine hlarge
  · refine ⟨_, if_pos hopen, rfl, ?_⟩
    rw [load_of_fits h.machine hfits]
    exact ⟨fun k hk => read_program hm hfits hk, fun _ _ => rfl, rfl, fun _ _ => rfl, rfl, ⟨rfl, rfl⟩, rfl,
      fun _ hout => Memory.read_writeBytes_out _ bytes hout, ⟨rfl, rfl⟩, ⟨rfl, rfl, rfl⟩, ⟨rfl, rfl⟩⟩

theorem getV_reset (x : RegIx) : State.reset.getV x = 0 := by
  simp [State.getV, State.reset]

/-- Settles O48: the launch writes `RAM_INIT` outside the font, and the load writes the program's range only. -/
theorem stateAfterResetAndLoad : Obligations.StateAfterResetAndLoad := by
  intro params init draws bytes s hfits hs
  rw [launched_of_fits _ _ _ hfits] at hs
  subst hs
  have hm := launchRam_wf ((List.range 0x1000).map fun a => (a, init a)) Memory.wf_nil
  refine ⟨getV_reset, rfl, rfl, rfl, rfl, rfl, rfl, rfl, rfl, rfl, fun _ => rfl, fun k hk => ?font,
    fun k hk => read_program hm hfits hk, fun a ha => ?init⟩
  case font =>
    have hfont : inFont (0x100 + k) := by
      simp only [inFont, Config.fontBase, Config.fontSize]
      omega
    have hbelow : ¬ (Config.progBase ≤ 0x100 + k ∧ 0x100 + k < Config.progBase + bytes.length) := by
      simp only [Config.progBase]
      omega
    rw [setRam_ram, Memory.read_writeBytes_out _ _ hbelow, read_launchRam_font hfont, read_nil_font hk]
  case init =>
    have hfont : ¬ inFont a := by
      simp only [inFont, Config.fontBase, Config.fontSize]
      omega
    have hin : a < Config.ramSize := by
      simp only [Config.ramSize]
      omega
    have hout : ¬ (Config.progBase ≤ a ∧ a < Config.progBase + bytes.length) := by
      simp only [Config.progBase]
      omega
    rw [setRam_ram, Memory.read_writeBytes_out _ _ hout, read_launchRam_map init hfont hin _ Memory.wf_nil,
      if_pos (List.mem_range.mpr hin)]

/-- The entry point is an address a fetch can read (R192). -/
theorem fetchable_of_entry {s : State} (hpc : s.pc = 0x0200) : s.fetchable := by
  rw [State.fetchable, hpc]
  decide

/-- Settles O50: the two bytes at 0x200 are the program's first. -/
theorem firstStepRunsTheFirstWordOfTheProgram : Obligations.FirstStepRunsTheFirstWordOfTheProgram := by
  intro params ramInit draws hi lo rest i hlen hd
  have hfits : (hi :: lo :: rest).length ≤ 3584 := hlen
  rw [launched_of_fits _ _ _ hfits]
  refine step_of_decode_ok (launch_running params ramInit draws) (fetchable_of_entry rfl) ?_
  have hm := launchRam_wf ramInit Memory.wf_nil
  have hhi := read_program hm hfits (k := 0) (by simp)
  have hlo := read_program hm hfits (k := 1) (by simp)
  exact (congrArg decode (congrArg₂ (· ++ ·) hhi hlo)).trans hd

end Sys2Proof.Machine
end

section
/-! Proofs about the display (44_display.md R141 to R144): a draw, pixel by pixel or byte by byte, toggles the pixels
the sprite covers and reports whether one of them was lit. -/

namespace Sys2Proof.Machine

/-! Toggling a set of pixels -/

/-- From `cv` to `cv'` exactly the pixels of `P` are toggled, and a lit one among them is a collision. -/
structure Toggles (P : Nat → Nat → Prop) (cv cv' : Canvas) : Prop where
  wf : cv'.vram.wf = true
  inside : ∀ cx cy, cx < 64 → cy < 32 → P cx cy → cv'.vram.pixel cx cy = !cv.vram.pixel cx cy
  outside : ∀ cx cy, cx < 64 → cy < 32 → ¬ P cx cy → cv'.vram.pixel cx cy = cv.vram.pixel cx cy
  coll : cv'.coll = true ↔
    cv.coll = true ∨ ∃ cx cy, cx < 64 ∧ cy < 32 ∧ P cx cy ∧ cv.vram.pixel cx cy = true

section
variable {P Q : Nat → Nat → Prop} {cv cv' cv'' : Canvas}

theorem toggles_none (h : cv.vram.wf = true) (hP : ∀ cx cy, cx < 64 → cy < 32 → ¬ P cx cy) : Toggles P cv cv where
  wf := h
  inside := fun cx cy hx hy hp => absurd hp (hP cx cy hx hy)
  outside := fun _ _ _ _ _ => rfl
  coll := ⟨.inl, fun h => h.elim id fun ⟨cx, cy, hx, hy, hp, _⟩ => absurd hp (hP cx cy hx hy)⟩

theorem toggles_congr (h : Toggles P cv cv') (hPQ : ∀ cx cy, cx < 64 → cy < 32 → (P cx cy ↔ Q cx cy)) :
    Toggles Q cv cv' where
  wf := h.wf
  inside := fun cx cy hx hy hq => h.inside cx cy hx hy ((hPQ cx cy hx hy).mpr hq)
  outside := fun cx cy hx hy hq => h.outside cx cy hx hy (mt (hPQ cx cy hx hy).mp hq)
  coll := by
    rw [h.coll]
    refine or_congr_right (exists₂_congr fun cx cy => and_congr_right fun hx => and_congr_right fun hy => ?_)
    rw [hPQ cx cy hx hy]

/-- Two disjoint sets one after the other are their union. -/
theorem toggles_trans (h : Toggles P cv cv') (h' : Toggles Q cv' cv'')
    (hdisj : ∀ cx cy, cx < 64 → cy < 32 → P cx cy → ¬ Q cx cy) : Toggles (fun cx cy => P cx cy ∨ Q cx cy) cv cv'' where
  wf := h'.wf
  inside := by
    rintro cx cy hx hy (hp | hq)
    · rw [h'.outside cx cy hx hy (hdisj cx cy hx hy hp), h.inside cx cy hx hy hp]
    · rw [h'.inside cx cy hx hy hq, h.outside cx cy hx hy fun hp => hdisj cx cy hx hy hp hq]
  outside := fun cx cy hx hy hpq => by
    obtain ⟨hp, hq⟩ := not_or.mp hpq
    rw [h'.outside cx cy hx hy hq, h.outside cx cy hx hy hp]
  coll := by
    rw [h'.coll, h.coll, or_assoc]
    refine or_congr_right ⟨?_, ?_⟩
    · rintro (⟨cx, cy, hx, hy, hp, hlit⟩ | ⟨cx, cy, hx, hy, hq, hlit⟩)
      · exact ⟨cx, cy, hx, hy, .inl hp, hlit⟩
      · exact ⟨cx, cy, hx, hy, .inr hq, by rwa [h.outside cx cy hx hy fun hp => hdisj cx cy hx hy hp hq] at hlit⟩
    · rintro ⟨cx, cy, hx, hy, hp | hq, hlit⟩
      · exact .inl ⟨cx, cy, hx, hy, hp, hlit⟩
      · exact .inr ⟨cx, cy, hx, hy, hq, by rwa [h.outside cx cy hx hy fun hp => hdisj cx cy hx hy hp hq]⟩

/-- The set determines the canvas, since VRAM is canonical. -/
theorem toggles_unique (h : Toggles P cv cv') (h' : Toggles P cv cv'') : cv' = cv'' := by
  have hvram : cv'.vram = cv''.vram := vram_ext h.wf h'.wf fun cx cy hx hy => by
    by_cases hp : P cx cy
    · rw [h.inside cx cy hx hy hp, h'.inside cx cy hx hy hp]
    · rw [h.outside cx cy hx hy hp, h'.outside cx cy hx hy hp]
  have hcoll : cv'.coll = cv''.coll := Bool.eq_iff_iff.mpr (h.coll.trans h'.coll.symm)
  cases cv'
  cases cv''
  exact congrArg₂ Canvas.mk hvram hcoll

end

/-! The per-pixel loop (R141) -/

section
variable {cv : Canvas} {x0 row : Nat}

theorem toggles_drawPixel (h : cv.vram.wf = true) {px py : Nat} (hx : px < 64) (hy : py < 32) :
    Toggles (fun cx cy => cx = px ∧ cy = py) cv (drawPixel px py cv) where
  wf := drawPixel_wf h px py
  inside := by
    rintro cx cy hcx hcy ⟨rfl, rfl⟩
    exact (pixel_setPixel h hx hy hcx _).trans (if_pos ⟨rfl, rfl⟩)
  outside := fun cx cy hcx _ hne => (pixel_setPixel h hx hy hcx _).trans (if_neg hne)
  coll := by
    rw [drawPixel, Bool.or_eq_true]
    refine or_congr_right ⟨fun hlit => ⟨px, py, hx, hy, ⟨rfl, rfl⟩, hlit⟩, ?_⟩
    rintro ⟨cx, cy, -, -, ⟨rfl, rfl⟩, hlit⟩
    exact hlit

/-- The pixels of the first `n` columns of a sprite row. -/
def rowCovers (b : Byte) (x0 row n cx cy : Nat) : Prop :=
  ∃ c, c < n ∧ cx = x0 + c ∧ cy = row ∧ b.getLsbD (7 - c) = true

theorem toggles_drawColumn (h : cv.vram.wf = true) (b : Byte) (hx0 : x0 ≤ 56) (hrow : row < 32) {c : Nat} (hc : c < 8) :
    Toggles (fun cx cy => cx = x0 + c ∧ cy = row ∧ b.getLsbD (7 - c) = true) cv (drawColumn b x0 row cv c) := by
  unfold drawColumn
  split
  · next hbit =>
    refine toggles_congr (toggles_drawPixel h (by omega) hrow) fun cx cy _ _ => ?_
    simp only [hbit, and_true]
  · next hbit => exact toggles_none h fun _ _ _ _ hp => hbit hp.2.2

theorem toggles_columns (h : cv.vram.wf = true) (b : Byte) (hx0 : x0 ≤ 56) (hrow : row < 32) {n : Nat} (hn : n ≤ 8) :
    Toggles (rowCovers b x0 row n) cv ((List.range n).foldl (drawColumn b x0 row) cv) := by
  induction n with
  | zero => exact toggles_none h fun _ _ _ _ ⟨_, hc, _⟩ => absurd hc (Nat.not_lt_zero _)
  | succ n ih =>
    have hfirst := ih (by omega)
    rw [List.range_succ, List.foldl_append, List.foldl_cons, List.foldl_nil]
    have hlast := toggles_drawColumn hfirst.wf b hx0 hrow (c := n) (by omega)
    have hdisj : ∀ cx cy, cx < 64 → cy < 32 → rowCovers b x0 row n cx cy →
        ¬ (cx = x0 + n ∧ cy = row ∧ b.getLsbD (7 - n) = true) := by
      rintro cx cy - - ⟨c, hc, hcx, -, -⟩ ⟨hcx', -, -⟩
      omega
    refine toggles_congr (toggles_trans hfirst hlast hdisj) fun cx cy _ _ => ?_
    simp only [rowCovers, Nat.lt_succ_iff_lt_or_eq, or_and_right, exists_or, exists_eq_left]

theorem toggles_drawRow (h : cv.vram.wf = true) (b : Byte) (hx0 : x0 ≤ 56) (hrow : row < 32) :
    Toggles (rowCovers b x0 row 8) cv (drawRow b x0 row cv) :=
  toggles_columns h b hx0 hrow (Nat.le_refl 8)

/-- The pixels of a sprite whose rows begin at display row `y`. -/
def rowsCover (bs : List Byte) (x0 y cx cy : Nat) : Prop :=
  ∃ r b, bs[r]? = some b ∧ rowCovers b x0 ((y + r) % 32) 8 cx cy

theorem rowsCover_cons (b : Byte) (bs : List Byte) (x0 y cx cy : Nat) :
    rowsCover (b :: bs) x0 y cx cy ↔ rowCovers b x0 (y % 32) 8 cx cy ∨ rowsCover bs x0 (y + 1) cx cy := by
  constructor
  · rintro ⟨_ | r, b', hb', hcover⟩
    · cases hb'
      exact .inl hcover
    · exact .inr ⟨r, b', hb', by rwa [Nat.add_right_comm]⟩
  · rintro (hcover | ⟨r, b', hb', hcover⟩)
    · exact ⟨0, b, rfl, hcover⟩
    · exact ⟨r + 1, b', hb', by rwa [Nat.add_right_comm] at hcover⟩

/-- At most 32 rows land on different display rows, so each pixel is toggled once. -/
theorem toggles_drawRows (bs : List Byte) (h : cv.vram.wf = true) (hx0 : x0 ≤ 56) (y : Nat) (hlen : bs.length ≤ 32) :
    Toggles (rowsCover bs x0 y) cv (drawRows bs x0 y cv) := by
  induction bs generalizing cv y with
  | nil => exact toggles_none h fun _ _ _ _ ⟨_, _, hb, _⟩ => by cases hb
  | cons b bs ih =>
    rw [List.length_cons] at hlen
    have hfirst := toggles_drawRow h b hx0 (row := y % 32) (by omega)
    have hdisj : ∀ cx cy, cx < 64 → cy < 32 → rowCovers b x0 (y % 32) 8 cx cy → ¬ rowsCover bs x0 (y + 1) cx cy := by
      rintro cx cy - - ⟨_, -, -, hcy, -⟩ ⟨r, _, hb', _, -, -, hcy', -⟩
      have hr : r < bs.length := (List.getElem?_eq_some_iff.mp hb').1
      omega
    refine toggles_congr (toggles_trans hfirst (ih hfirst.wf (y + 1) (by omega)) hdisj) fun cx cy _ _ => ?_
    exact (rowsCover_cons b bs x0 y cx cy).symm

end

/-! The byte-block realisation (R144) -/

theorem exists_common_bit_iff (a b : Byte) :
    (a &&& b != 0) = true ↔ ∃ j, j < 8 ∧ a.getLsbD j = true ∧ b.getLsbD j = true := by
  rw [bne_iff_ne]
  constructor
  · intro hne
    by_contra hnone
    refine hne (BitVec.eq_of_getLsbD_eq fun j hj => ?_)
    by_contra hbit
    refine hnone ⟨j, hj, ?_⟩
    simpa using hbit
  · rintro ⟨j, -, ha, hb⟩ hzero
    have hbit := congrArg (BitVec.getLsbD · j) hzero
    simp [ha, hb] at hbit

section
variable {cv : Canvas} {x0 row : Nat}

theorem toggles_xorByte (h : cv.vram.wf = true) {k : Nat} (hk : k < Config.vramSize) (b : Byte) :
    Toggles (fun cx cy => pixelByte cx cy = k ∧ b.getLsbD (pixelBit cx) = true) cv (xorByte k b cv) where
  wf := Framebuffer.wf_write h _ _
  inside := by
    rintro cx cy - - ⟨hbyte, hbit⟩
    rw [Framebuffer.pixel, Framebuffer.pixel, xorByte, Framebuffer.read_write h, if_pos ⟨hbyte, hk⟩, hbyte,
      BitVec.getLsbD_xor, hbit, Bool.xor_true]
  outside := by
    intro cx cy _ _ hout
    rw [Framebuffer.pixel, Framebuffer.pixel, xorByte, Framebuffer.read_write h]
    by_cases hbyte : pixelByte cx cy = k
    · have hbit : b.getLsbD (pixelBit cx) = false := Bool.eq_false_iff.mpr fun hbit => hout ⟨hbyte, hbit⟩
      rw [if_pos ⟨hbyte, hk⟩, hbyte, BitVec.getLsbD_xor, hbit, Bool.xor_false]
    · rw [if_neg fun hboth => hbyte hboth.1]
  coll := by
    rw [xorByte, Bool.or_eq_true, exists_common_bit_iff]
    refine or_congr_right ⟨?_, ?_⟩
    · rintro ⟨j, hj, hlit, hbit⟩
      obtain ⟨cx, cy, hx, hy, rfl, rfl⟩ := exists_pixel_of_bit hk hj
      exact ⟨cx, cy, hx, hy, ⟨rfl, hbit⟩, hlit⟩
    · rintro ⟨cx, cy, -, -, ⟨rfl, hbit⟩, hlit⟩
      exact ⟨pixelBit cx, Nat.lt_succ_of_le (Nat.sub_le 7 _), hlit, hbit⟩

/-- Where a row starts at a byte boundary its pixels are that byte's bits. -/
theorem aligned_covers_iff (b : Byte) (hx0 : x0 ≤ 56) (hs : x0 % 8 = 0) {cx cy : Nat} (hx : cx < 64) :
    pixelByte cx cy = 8 * row + x0 / 8 ∧ b.getLsbD (pixelBit cx) = true ↔ rowCovers b x0 row 8 cx cy := by
  unfold pixelByte pixelBit rowCovers
  constructor
  · rintro ⟨hbyte, hbit⟩
    exact ⟨cx % 8, by omega, by omega, by omega, hbit⟩
  · rintro ⟨c, hc, rfl, rfl, hbit⟩
    have hc' : (x0 + c) % 8 = c := by omega
    exact ⟨by omega, by rwa [hc']⟩

/-- Elsewhere the row's first columns are the low bits of one byte and the rest the high bits of the next. -/
theorem unaligned_covers_iff (b : Byte) (hx0 : x0 ≤ 56) {cx cy : Nat} (hx : cx < 64) :
    (pixelByte cx cy = 8 * row + x0 / 8 ∧ (b >>> (x0 % 8)).getLsbD (pixelBit cx) = true) ∨
      (pixelByte cx cy = 8 * row + x0 / 8 + 1 ∧ (b <<< (8 - x0 % 8)).getLsbD (pixelBit cx) = true) ↔
    rowCovers b x0 row 8 cx cy := by
  unfold pixelByte pixelBit rowCovers
  rw [BitVec.getLsbD_ushiftRight, BitVec.getLsbD_shiftLeft]
  constructor
  · rintro (⟨hbyte, hbit⟩ | ⟨hbyte, hbit⟩)
    · have hlt := BitVec.lt_of_getLsbD hbit
      have hcol : 7 - (cx - x0) = x0 % 8 + (7 - cx % 8) := by omega
      exact ⟨cx - x0, by omega, by omega, by omega, by rwa [hcol]⟩
    · simp only [Bool.and_eq_true, decide_eq_true_eq, Bool.not_eq_true', decide_eq_false_iff_not] at hbit
      obtain ⟨⟨-, hge⟩, hbit⟩ := hbit
      have hcol : 7 - (cx - x0) = 7 - cx % 8 - (8 - x0 % 8) := by omega
      exact ⟨cx - x0, by omega, by omega, by omega, by rwa [hcol]⟩
  · rintro ⟨c, hc, rfl, rfl, hbit⟩
    by_cases hfirst : x0 % 8 + c < 8
    · have hcol : x0 % 8 + (7 - (x0 + c) % 8) = 7 - c := by omega
      exact .inl ⟨by omega, by rwa [hcol]⟩
    · have hcol : 7 - (x0 + c) % 8 - (8 - x0 % 8) = 7 - c := by omega
      refine .inr ⟨by omega, ?_⟩
      simp only [hcol, hbit, Bool.and_true, Bool.and_eq_true, decide_eq_true_eq, Bool.not_eq_true',
        decide_eq_false_iff_not]
      omega

theorem toggles_drawRowBlock (h : cv.vram.wf = true) (b : Byte) (hx0 : x0 ≤ 56) (hrow : row < 32) :
    Toggles (rowCovers b x0 row 8) cv (drawRowBlock b x0 row cv) := by
  have hk : 8 * row + x0 / 8 < Config.vramSize := by
    simp only [Config.vramSize]
    omega
  unfold drawRowBlock
  split
  · next hs => exact toggles_congr (toggles_xorByte h hk b) fun cx cy hx _ => aligned_covers_iff b hx0 hs hx
  · have hk' : 8 * row + x0 / 8 + 1 < Config.vramSize := by
      simp only [Config.vramSize]
      omega
    have hfirst := toggles_xorByte h hk (b >>> (x0 % 8))
    have hsecond := toggles_xorByte hfirst.wf hk' (b <<< (8 - x0 % 8))
    refine toggles_congr (toggles_trans hfirst hsecond ?_) fun cx cy hx _ => unaligned_covers_iff b hx0 hx
    rintro cx cy - - ⟨hbyte, -⟩ ⟨hbyte', -⟩
    omega

end

/-- Settles O37: row by row both realisations toggle the same pixels. -/
theorem blockRealisationEqualsPixelLoop : Obligations.BlockRealisationEqualsPixelLoop := by
  intro bs x0 y cv h hx0
  induction bs generalizing y cv with
  | nil => rfl
  | cons b bs ih =>
    have hrow : y % Config.displayH < 32 := Nat.mod_lt _ (by decide)
    rw [drawRowsBlock, drawRows, toggles_unique (toggles_drawRowBlock h b hx0 hrow) (toggles_drawRow h b hx0 hrow)]
    exact ih (y + 1) _ (drawRow_wf h b x0 _)

/-! DRW (R141 to R143) -/

theorem snapColumn_eq_spriteColumn (vx : Byte) : snapColumn vx = spriteColumn vx := by
  have hiff : vx.toNat + 8 > Config.displayW ↔ 57 ≤ vx.toNat := by
    simp only [Config.displayW]
    omega
  simp only [snapColumn, spriteColumn, hiff]

/-- The loop's pixels are those of the placed sprite. -/
theorem rowsCover_iff_spriteCovers (x y : RegIx) (n : Nibble) (s : State) (cx cy : Nat) :
    rowsCover (s.ram.readBytes (effectiveAddress s 0) n.toNat) (snapColumn (s.getV x)) (s.getV y).toNat cx cy ↔
      spriteCovers x y n s cx cy := by
  rw [snapColumn_eq_spriteColumn]
  constructor
  · rintro ⟨r, b, hb, c, hc, hcx, hcy, hbit⟩
    obtain ⟨hr, rfl⟩ := List.getElem?_eq_some_iff.mp hb
    rw [Memory.getElem_readBytes] at hbit
    rw [Memory.length_readBytes] at hr
    exact ⟨r, c, hr, hc, hcx, hcy, hbit⟩
  · rintro ⟨r, c, hr, hc, hcx, hcy, hbit⟩
    have hr' : r < (s.ram.readBytes (effectiveAddress s 0) n.toNat).length := by rwa [Memory.length_readBytes]
    refine ⟨r, _, List.getElem?_eq_getElem hr', c, hc, hcx, hcy, ?_⟩
    rwa [Memory.getElem_readBytes]

theorem exec_drw_in_range {n : Nibble} {s : State} (x y : RegIx) (hin : s.i.toNat + n.toNat < Config.ramSize) :
    exec (.drw x y n) s =
      .next (s.drawnOn (drawRows (s.ram.readBytes (effectiveAddress s 0) n.toNat) (snapColumn (s.getV x))
        (s.getV y).toNat { vram := s.vram, coll := false })) :=
  if_neg (Nat.not_le.mpr hin)

/-- With canonical VRAM a draw toggles the pixels the placed sprite covers, from a canvas without a collision. -/
theorem exec_drw_effect {n : Nibble} {s : State} (x y : RegIx) (hw : s.vram.wf = true)
    (hin : s.i.toNat + n.toNat < Config.ramSize) :
    ∃ cv, exec (.drw x y n) s = .next (s.drawnOn cv) ∧
      Toggles (spriteCovers x y n s) { vram := s.vram, coll := false } cv := by
  have hlen : (s.ram.readBytes (effectiveAddress s 0) n.toNat).length ≤ 32 := by
    rw [Memory.length_readBytes]
    omega
  exact ⟨_, exec_drw_in_range x y hin,
    toggles_congr (toggles_drawRows _ hw (snapColumn_le _) _ hlen) fun cx cy _ _ =>
      rowsCover_iff_spriteCovers x y n s cx cy⟩

/-! What a draw leaves in the state -/

section
variable (s : State) (cv : Canvas)

theorem drawnOn_vf : (s.drawnOn cv).getV vf = flagByte cv.coll := getV_setV_same _ vf _

theorem drawnOn_regs : sameRegsBut [vf] s (s.drawnOn cv) := fun _ hr =>
  getV_setV_ne (s.setVram cv.vram) (mt List.mem_singleton.mpr hr) _

variable {s cv} {P : Nat → Nat → Prop} {f : Framebuffer} (h : Toggles P { vram := f, coll := false } cv)
include h

theorem drawnOn_vf_of_lit (hlit : ∃ cx cy, cx < 64 ∧ cy < 32 ∧ P cx cy ∧ f.pixel cx cy = true) :
    (s.drawnOn cv).getV vf = 1 := by
  rw [drawnOn_vf, h.coll.mpr (.inr hlit), flagByte_true]

theorem drawnOn_vf_of_unlit (hunlit : ∀ cx cy, cx < 64 → cy < 32 → P cx cy → f.pixel cx cy = false) :
    (s.drawnOn cv).getV vf = 0 := by
  have hcoll : cv.coll = false := by
    refine Bool.eq_false_iff.mpr fun hcoll => ?_
    rcases h.coll.mp hcoll with hbefore | ⟨cx, cy, hx, hy, hp, hlit⟩
    · exact Bool.false_ne_true hbefore
    · exact Bool.false_ne_true ((hunlit cx cy hx hy hp).symm.trans hlit)
  rw [drawnOn_vf, hcoll, flagByte_false]

end

/-- Settles O35: by its fault site and `exec_drw_effect`. -/
theorem drawTogglesTheCoveredPixels : Obligations.DrawTogglesTheCoveredPixels := by
  intro x y n s
  refine ⟨decode_encode (.drw x y n), fun hout => ?_, fun hw hin => ?_⟩
  · exact ⟨_, exec_of_faultSite (i := .drw x y n) ⟨hout, rfl, rfl⟩, rfl⟩
  · obtain ⟨cv, hexec, h⟩ := exec_drw_effect x y hw hin
    exact ⟨_, hexec, fun cx cy hx hy => ⟨h.inside cx cy hx hy, h.outside cx cy hx hy⟩, drawnOn_vf_of_lit h,
      drawnOn_vf_of_unlit h, rfl, rfl, drawnOn_regs s cv, rfl, ⟨rfl, rfl⟩, rfl, fun _ => rfl, ⟨rfl, rfl, rfl⟩,
      ⟨rfl, rfl⟩⟩

/-- Settles O36: a sprite without rows leaves the canvas it is given. -/
theorem drawWithoutRowsOnlyClearsTheFlag : Obligations.DrawWithoutRowsOnlyClearsTheFlag := by
  intro x y s
  refine ⟨fun hin => ?_, fun hout => ?_⟩
  · exact ⟨_, exec_drw_in_range x y hin, rfl, drawnOn_vf s _, rfl, rfl, drawnOn_regs s _, fun _ => rfl⟩
  · exact ⟨_, exec_of_faultSite (i := .drw x y 0) ⟨hout, rfl, rfl⟩, rfl⟩

theorem spriteCovers_congr {x y : RegIx} {n : Nibble} {s u : State} (hi : u.i = s.i) (hx : u.getV x = s.getV x)
    (hy : u.getV y = s.getV y) (hram : sameRam s u) (cx cy : Nat) :
    spriteCovers x y n u cx cy ↔ spriteCovers x y n s cx cy := by
  unfold sameRam at hram
  simp only [spriteCovers, hi, hx, hy, hram]

/-- Settles O38: both draws toggle the same pixels, so the second undoes the first and meets lit what was unlit. -/
theorem drawingTwiceRestoresTheDisplay : Obligations.DrawingTwiceRestoresTheDisplay := by
  intro x y n s t u w hw hin hfirst hvram hi hx hy hram hsecond
  obtain ⟨cv, hexec, h⟩ := exec_drw_effect x y hw hin
  cases hexec.symm.trans hfirst
  have huwf : u.vram.wf = true := hvram ▸ h.wf
  obtain ⟨cv', hexec', h'⟩ := exec_drw_effect x y huwf (by rwa [hi])
  cases hexec'.symm.trans hsecond
  have hpixel : ∀ cx cy, u.vram.pixel cx cy = cv.vram.pixel cx cy := fun _ _ => by
    rw [hvram]
    rfl
  have hagain := toggles_congr h' fun cx cy _ _ => spriteCovers_congr hi hx hy hram cx cy
  refine ⟨vram_ext hagain.wf hw fun cx cy hcx hcy => ?_, fun ⟨cx, cy, hcx, hcy, hcover, hunlit⟩ => ?_,
    fun hlit => drawnOn_vf_of_unlit hagain fun cx cy hcx hcy hcover => ?_⟩
  · by_cases hcover : spriteCovers x y n s cx cy
    · exact (hagain.inside cx cy hcx hcy hcover).trans
        (by rw [hpixel, h.inside cx cy hcx hcy hcover, Bool.not_not])
    · exact (hagain.outside cx cy hcx hcy hcover).trans
        (by rw [hpixel, h.outside cx cy hcx hcy hcover])
  · refine drawnOn_vf_of_lit hagain ⟨cx, cy, hcx, hcy, hcover, ?_⟩
    rw [hpixel, h.inside cx cy hcx hcy hcover, hunlit, Bool.not_false]
  · rw [hpixel, h.inside cx cy hcx hcy hcover, hlit cx cy hcx hcy hcover, Bool.not_true]

end Sys2Proof.Machine
end
